-- ==== Sys2Proof/Word.lean ====
section
/-! DEFINITION. The two data widths of the core: the byte is 8 bits and the word is 16 bits
(spec/00_scope.md R6, R7). -/

namespace Sys2Proof

/-- An unsigned 8-bit value (R7): a memory byte, an opcode byte, a register operand byte. -/
abbrev Byte := BitVec 8

/-- An unsigned 16-bit value (R7): a register, an address, a literal, the counter `sfs`. -/
abbrev Word := BitVec 16

end Sys2Proof
end

