-- ==== Sys2Proof/Machine/Bytes.lean ====
section
/-! DEFINITION. Byte order: `combine` and `split` (spec/00_scope.md R7), big-endian everywhere
(spec/20_memory.md R35), and the big-endian bytes of a table row's number (spec/opcode_table.json, "byte_order"). -/

namespace Sys2Proof

/-- `combine(hi, lo) = hi ++ lo` (R7). -/
def combine (hi lo : Byte) : Word := hi ++ lo

/-- `w[15:8]`, the first component of `split(w)` (R7). -/
def hiByte (w : Word) : Byte := w.extractLsb' 8 8

/-- `w[7:0]`, the second component of `split(w)` (R7). -/
def loByte (w : Word) : Byte := w.extractLsb' 0 8

/-- The low `8 * n` bits of `w` as `n` bytes, most significant first. -/
def bigEndianBytes : Nat → Nat → List Byte
  | 0, _ => []
  | n + 1, w => BitVec.ofNat 8 (w / 2 ^ (8 * n)) :: bigEndianBytes n w

end Sys2Proof
end

