-- ==== Sys2Proof/Syntax.lean ====
section
/-! DEFINITION. The instructions of the core, one constructor per row of spec/opcode_table.json
(spec/30_encoding.md R52). Register operands are the raw index bytes: every byte value is a well-formed operand and
the index is checked when the register is accessed (R50, R54). -/

namespace Sys2Proof

/-- The 13 instructions (R52), operands in the order of their bytes. -/
inductive Instr where
  /-- MOV_LIT_REG 0x10 (R66). -/
  | movLitReg (literal : Word) (reg : Byte)
  /-- MOV_REG_REG 0x11 (R67). -/
  | movRegReg (src dst : Byte)
  /-- MOV_REG_MEM 0x12 (R68). -/
  | movRegMem (reg : Byte) (addr : Word)
  /-- MOV_MEM_REG 0x13 (R69). -/
  | movMemReg (addr : Word) (reg : Byte)
  /-- ADD_REG_REG 0x14 (R71). -/
  | addRegReg (a b : Byte)
  /-- JMP_NOT_EQ 0x15 (R72). -/
  | jmpNotEq (literal addr : Word)
  /-- PSH_LIT 0x17 (R76). -/
  | pshLit (literal : Word)
  /-- PSH_REG 0x18 (R77). -/
  | pshReg (reg : Byte)
  /-- POP 0x1A (R78). -/
  | pop (reg : Byte)
  /-- CAL_LIT 0x5E (R82). -/
  | calLit (addr : Word)
  /-- CAL_REG 0x5F (R83). -/
  | calReg (reg : Byte)
  /-- RET 0x60 (R84). -/
  | ret
  /-- HALT 0xFF (R64). -/
  | halt
deriving DecidableEq, Repr

end Sys2Proof
end

