-- ==== Sys2Proof/Decode.lean ====
section
/-! DEFINITION. The opcode map and the seven formats (spec/30_encoding.md R49, R52), the decoder from bytes to an
instruction, the encoder back, and the decoder's reading of a row number of spec/opcode_table.json. -/

namespace Sys2Proof

/-! ### The opcode map -/

/-- The 13 rows of the opcode map (R52). -/
inductive Opcode where
  | movLitReg | movRegReg | movRegMem | movMemReg | addRegReg | jmpNotEq | pshLit | pshReg | pop
  | calLit | calReg | ret | halt
deriving DecidableEq, Repr

/-- Every row, in the table's order. -/
def Opcode.all : List Opcode :=
  [.movLitReg, .movRegReg, .movRegMem, .movMemReg, .addRegReg, .jmpNotEq, .pshLit, .pshReg, .pop,
   .calLit, .calReg, .ret, .halt]

/-- The opcode byte of a row (R52). -/
def Opcode.byte : Opcode → Byte
  | .movLitReg => 0x10
  | .movRegReg => 0x11
  | .movRegMem => 0x12
  | .movMemReg => 0x13
  | .addRegReg => 0x14
  | .jmpNotEq => 0x15
  | .pshLit => 0x17
  | .pshReg => 0x18
  | .pop => 0x1A
  | .calLit => 0x5E
  | .calReg => 0x5F
  | .ret => 0x60
  | .halt => 0xFF

/-- The row a byte spells, none for the 243 illegal bytes (R52, R53). -/
def Opcode.ofByte (b : Byte) : Option Opcode := Opcode.all.find? fun o => o.byte == b

/-! ### The formats -/

/-- The seven formats (R49). -/
inductive Format where
  | n | r | rr | l | lr | rl | ll
deriving DecidableEq, Repr

/-- One operand fetch: a byte (`fetch_u8`) or a word (`fetch_u16`) (R39). -/
inductive OperandField where
  | u8 | u16
deriving DecidableEq, Repr

/-- The format of each row (R52). -/
def Opcode.format : Opcode → Format
  | .movLitReg => .lr
  | .movRegReg => .rr
  | .movRegMem => .rl
  | .movMemReg => .lr
  | .addRegReg => .rr
  | .jmpNotEq => .ll
  | .pshLit => .l
  | .pshReg => .r
  | .pop => .r
  | .calLit => .l
  | .calReg => .r
  | .ret => .n
  | .halt => .n

/-- The operand fetches of a format, in order (R49); the register pair of RR is one word fetch (R51). -/
def Format.fields : Format → List OperandField
  | .n => []
  | .r => [.u8]
  | .rr => [.u16]
  | .l => [.u16]
  | .lr => [.u16, .u8]
  | .rl => [.u8, .u16]
  | .ll => [.u16, .u16]

/-- Bytes of one operand fetch. -/
def OperandField.size : OperandField → Nat
  | .u8 => 1
  | .u16 => 2

/-- Bytes of a list of operand fetches. -/
def fieldsSize : List OperandField → Nat
  | [] => 0
  | f :: fs => f.size + fieldsSize fs

/-- The length of an instruction, told from its opcode alone (R48, R55). -/
def Opcode.length (o : Opcode) : Nat := 1 + fieldsSize o.format.fields

/-- The longest instruction (R48). -/
def maxInstrLength : Nat := 5

/-- The row of an instruction. -/
def Instr.opcode : Instr → Opcode
  | .movLitReg _ _ => .movLitReg
  | .movRegReg _ _ => .movRegReg
  | .movRegMem _ _ => .movRegMem
  | .movMemReg _ _ => .movMemReg
  | .addRegReg _ _ => .addRegReg
  | .jmpNotEq _ _ => .jmpNotEq
  | .pshLit _ => .pshLit
  | .pshReg _ => .pshReg
  | .pop _ => .pop
  | .calLit _ => .calLit
  | .calReg _ => .calReg
  | .ret => .ret
  | .halt => .halt

/-- The length of an instruction in bytes (R52). -/
def Instr.length (i : Instr) : Nat := i.opcode.length

/-! ### Decode and encode -/

/-- Why a list of bytes is no instruction. -/
inductive DecodeError where
  /-- There is no opcode byte. -/
  | noBytes
  /-- The opcode byte is not in the opcode map (R53). -/
  | unknownOpcode (b : Byte)
  /-- The list ends before the row's operands do. -/
  | truncated (o : Opcode)
deriving DecidableEq, Repr

/-- The instruction a row and the bytes after its opcode spell (R49, R50), and the bytes that are left. Register
bytes are taken as they stand (R50). -/
def decodeOperands (o : Opcode) (bytes : List Byte) : Except DecodeError (Instr × List Byte) :=
  match o with
  | .movLitReg =>
    match bytes with
    | hi :: lo :: r :: rest => .ok (.movLitReg (combine hi lo) r, rest)
    | _ => .error (.truncated o)
  | .movRegReg =>
    match bytes with
    | src :: dst :: rest => .ok (.movRegReg src dst, rest)
    | _ => .error (.truncated o)
  | .movRegMem =>
    match bytes with
    | r :: hi :: lo :: rest => .ok (.movRegMem r (combine hi lo), rest)
    | _ => .error (.truncated o)
  | .movMemReg =>
    match bytes with
    | hi :: lo :: r :: rest => .ok (.movMemReg (combine hi lo) r, rest)
    | _ => .error (.truncated o)
  | .addRegReg =>
    match bytes with
    | a :: b :: rest => .ok (.addRegReg a b, rest)
    | _ => .error (.truncated o)
  | .jmpNotEq =>
    match bytes with
    | h1 :: l1 :: h2 :: l2 :: rest => .ok (.jmpNotEq (combine h1 l1) (combine h2 l2), rest)
    | _ => .error (.truncated o)
  | .pshLit =>
    match bytes with
    | hi :: lo :: rest => .ok (.pshLit (combine hi lo), rest)
    | _ => .error (.truncated o)
  | .pshReg =>
    match bytes with
    | r :: rest => .ok (.pshReg r, rest)
    | _ => .error (.truncated o)
  | .pop =>
    match bytes with
    | r :: rest => .ok (.pop r, rest)
    | _ => .error (.truncated o)
  | .calLit =>
    match bytes with
    | hi :: lo :: rest => .ok (.calLit (combine hi lo), rest)
    | _ => .error (.truncated o)
  | .calReg =>
    match bytes with
    | r :: rest => .ok (.calReg r, rest)
    | _ => .error (.truncated o)
  | .ret => .ok (.ret, bytes)
  | .halt => .ok (.halt, bytes)

/-- Decode one instruction from the front of a list of bytes (R48): total, stateless, rejecting by name. -/
def decode : List Byte → Except DecodeError (Instr × List Byte)
  | [] => .error .noBytes
  | op :: rest =>
    match Opcode.ofByte op with
    | none => .error (.unknownOpcode op)
    | some o => decodeOperands o rest

/-- The operand bytes of an instruction (R49, R50). -/
def encodeOperands : Instr → List Byte
  | .movLitReg literal reg => [hiByte literal, loByte literal, reg]
  | .movRegReg src dst => [src, dst]
  | .movRegMem reg addr => [reg, hiByte addr, loByte addr]
  | .movMemReg addr reg => [hiByte addr, loByte addr, reg]
  | .addRegReg a b => [a, b]
  | .jmpNotEq literal addr => [hiByte literal, loByte literal, hiByte addr, loByte addr]
  | .pshLit literal => [hiByte literal, loByte literal]
  | .pshReg reg => [reg]
  | .pop reg => [reg]
  | .calLit addr => [hiByte addr, loByte addr]
  | .calReg reg => [reg]
  | .ret => []
  | .halt => []

/-- The bytes of an instruction (R49, R52). -/
def encode (i : Instr) : List Byte := i.opcode.byte :: encodeOperands i

/-! ### The opcode table's numbering -/

/-- The bytes of a number that spec/opcode_table.json numbers: `nbits` bits, most significant byte first, at the lowest
address ("byte_order": bit 0 is the last byte's least significant bit), and zeros up to the longest instruction. -/
def tableBytes (nbits w : Nat) : List Byte :=
  let n := (nbits + 7) / 8
  bigEndianBytes n w ++ List.replicate (maxInstrLength - n) 0

/-- The instruction the decoder reads from the table's number `w` of `nbits` bits. -/
def decodeTableWord (nbits w : Nat) : Option Instr :=
  match decode (tableBytes nbits w) with
  | .ok (i, _) => some i
  | .error _ => none

end Sys2Proof
end

