-- ==== Sys2Proof/Config.lean ====
section
/-! DEFINITION. What one machine of the family fixes: the lengths of memory that CONSTRUCT admits
(spec/00_scope.md R5, spec/92_eei_decisions.md D1). The other parameter, INIT_MEM, is an argument of CONSTRUCT
(Machine/Transactions.lean), and the one free value, the contents of a faulted state, is declared beside the
transaction that draws it (`Config.faultedContents` in Machine/Transactions.lean), because its type is State. -/

namespace Sys2Proof.Config

/-- The least `MEM_LEN` (R5): the last whole word, at `MEM_LEN - 2`, must exist. -/
def minMemLen : Nat := 2

/-- The greatest `MEM_LEN` (R5). -/
def maxMemLen : Nat := 65535

/-- `2 <= MEM_LEN <= 65535`, the lengths a machine is built with (R5, R100). -/
abbrev memLenOk (len : Nat) : Prop := minMemLen ≤ len ∧ len ≤ maxMemLen

end Sys2Proof.Config
end

