-- ==== Sys2Proof/Machine/Boot.lean ====
section
/-! DEFINITION. The parameter of CONSTRUCT that `State.reset` is built with. The spec leaves it open
(spec/00_scope.md R5); it stands in a file of its own so that it can be mended. -/

namespace Sys2Proof.Machine

/-- The `MEM_LEN` of `State.reset`. DESIGN CHOICE, log 1: the greatest length R5 admits, so that every byte address
that any admitted machine has exists. Nothing else in the model reads it. -/
def resetMemLen : Nat := Config.maxMemLen

end Sys2Proof.Machine
end

