-- ==== Sys2Proof/Machine/Memory.lean ====
section
/-! DEFINITION. The memory bank: a fixed-length sequence of bytes (spec/20_memory.md R31), held as its length and a
list of (address, byte) pairs in one canonical form. These are the raw reads and writes of the bank; the bounds-checked
accesses of R32 and R33 are in Machine/Ops.lean. -/

namespace Sys2Proof.Machine

/-- What a byte that is not listed reads as. It only fixes how a bank is written down: a bank with any contents at all
is a value of Memory. DESIGN CHOICE, log 2: it is also every byte of INIT_MEM in `State.reset`. -/
def memFill : Byte := 0

/-- The memory bank (R30, R31): `len` is MEM_LEN, and `cells` lists the bytes that are not `memFill`. -/
structure Memory where
  len : Nat
  cells : List Host.Cell
deriving DecidableEq, Repr, Inhabited

/-- The byte at an address of a list of cells. -/
def cellAt : List Host.Cell → Nat → Byte
  | [], _ => memFill
  | (k, b) :: rest, a => if k = a then b else cellAt rest a

/-- A list of cells with the byte at one address replaced; a byte `memFill` is not listed. -/
def putCell : List Host.Cell → Nat → Byte → List Host.Cell
  | [], a, b => if b = memFill then [] else [(a, b)]
  | (k, c) :: rest, a, b =>
    if k < a then (k, c) :: putCell rest a b
    else if k = a then (if b = memFill then rest else (a, b) :: rest)
    else if b = memFill then (k, c) :: rest
    else (a, b) :: (k, c) :: rest

/-- The canonical form of the cells at addresses `lo .. len - 1`: addresses strictly rise and no byte is `memFill`. -/
def cellsWf (len : Nat) : Nat → List Host.Cell → Bool
  | _, [] => true
  | lo, (k, b) :: rest => decide (lo ≤ k) && decide (k < len) && decide (b ≠ memFill) && cellsWf len (k + 1) rest

/-- The canonical form of a bank: equal banks are equal data. -/
def Memory.wf (m : Memory) : Bool := cellsWf m.len 0 m.cells

/-- The byte at an address (in bounds or not: Machine/Ops.lean checks). -/
def Memory.byteAt (m : Memory) (a : Nat) : Byte := cellAt m.cells a

/-- The bank with one byte replaced (in bounds or not: Machine/Ops.lean checks). -/
def Memory.putByte (m : Memory) (a : Nat) (b : Byte) : Memory := { m with cells := putCell m.cells a b }

/-- The bank with a word written at `a` and `a + 1`, high byte first (R33, R35). -/
def Memory.putWord (m : Memory) (a : Nat) (w : Word) : Memory :=
  (m.putByte a (hiByte w)).putByte (a + 1) (loByte w)

/-- The word at `a` and `a + 1`, high byte first (R33, R35). -/
def Memory.wordAt (m : Memory) (a : Nat) : Word := combine (m.byteAt a) (m.byteAt (a + 1))

/-- The `n` bytes from an address up. -/
def Memory.bytesFrom (m : Memory) : Nat → Nat → List Byte
  | _, 0 => []
  | a, n + 1 => m.byteAt a :: m.bytesFrom (a + 1) n

/-- The bank with bytes written from an address up, each at the next address (R103). -/
def Memory.putBytes (m : Memory) : Nat → List Byte → Memory
  | _, [] => m
  | a, b :: rest => (m.putByte a b).putBytes (a + 1) rest

/-- `putBytes`, with the bytes that would pass the end of memory left out. -/
def Memory.install (m : Memory) (a : Nat) (bytes : List Byte) : Memory := m.putBytes a (bytes.take (m.len - a))

/-- The bank of `len` bytes whose byte at address `k` is the `k`-th of a list (INIT_MEM, R5, R100). -/
def Memory.ofBytes (len : Nat) (bytes : List Byte) : Memory := Memory.putBytes ⟨len, []⟩ 0 bytes

end Sys2Proof.Machine
end

