-- ==== Sys2Proof/Machine/Registers.lean ====
section
/-! DEFINITION. The register file: 12 registers of 16 bits, each with a fixed index (spec/10_state.md R13). -/

namespace Sys2Proof.Machine

/-- The 12 registers by name (R13). -/
inductive Reg where
  | ip | acc | r1 | r2 | r3 | r4 | r5 | r6 | r7 | r8 | sp | fp
deriving DecidableEq, Repr

/-- The fixed index of each register (R13). -/
def Reg.index : Reg → Byte
  | .ip => 0
  | .acc => 1
  | .r1 => 2
  | .r2 => 3
  | .r3 => 4
  | .r4 => 5
  | .r5 => 6
  | .r6 => 7
  | .r7 => 8
  | .r8 => 9
  | .sp => 10
  | .fp => 11

/-- Every register, in the order of the indices. -/
def Reg.all : List Reg := [.ip, .acc, .r1, .r2, .r3, .r4, .r5, .r6, .r7, .r8, .sp, .fp]

/-- The register an index names, none for 12 and above (R13, R16). -/
def Reg.ofIndex (i : Byte) : Option Reg := Reg.all.find? fun r => r.index == i

/-- The register file (R13): no register is hard-wired and none is read-only (R14). -/
structure RegFile where
  ip : Word
  acc : Word
  r1 : Word
  r2 : Word
  r3 : Word
  r4 : Word
  r5 : Word
  r6 : Word
  r7 : Word
  r8 : Word
  sp : Word
  fp : Word
deriving DecidableEq, Repr, Inhabited

/-- The 16-bit value of a register (R16). -/
def RegFile.get (f : RegFile) : Reg → Word
  | .ip => f.ip
  | .acc => f.acc
  | .r1 => f.r1
  | .r2 => f.r2
  | .r3 => f.r3
  | .r4 => f.r4
  | .r5 => f.r5
  | .r6 => f.r6
  | .r7 => f.r7
  | .r8 => f.r8
  | .sp => f.sp
  | .fp => f.fp

/-- The file with all 16 bits of one register replaced and no other register changed (R17). -/
def RegFile.set (f : RegFile) (r : Reg) (v : Word) : RegFile :=
  match r with
  | .ip => { f with ip := v }
  | .acc => { f with acc := v }
  | .r1 => { f with r1 := v }
  | .r2 => { f with r2 := v }
  | .r3 => { f with r3 := v }
  | .r4 => { f with r4 := v }
  | .r5 => { f with r5 := v }
  | .r6 => { f with r6 := v }
  | .r7 => { f with r7 := v }
  | .r8 => { f with r8 := v }
  | .sp => { f with sp := v }
  | .fp => { f with fp := v }

/-- The registers after CONSTRUCT: all zero but SP and FP, which hold `MEM_LEN - 2` (R28, R100). -/
def RegFile.initial (memLen : Nat) : RegFile :=
  { ip := 0, acc := 0, r1 := 0, r2 := 0, r3 := 0, r4 := 0, r5 := 0, r6 := 0, r7 := 0, r8 := 0,
    sp := BitVec.ofNat 16 (memLen - 2), fp := BitVec.ofNat 16 (memLen - 2) }

end Sys2Proof.Machine
end

