-- ==== Sys2Proof/Machine/State.lean ====
section
/-! DEFINITION. The whole architectural state (spec/10_state.md R30), the fault kinds (spec/60_exceptions.md R86), the
refusals, and the state after reset (R28, R100). -/

namespace Sys2Proof.Machine

/-- The two error kinds, both fatal (R86). Each is the spec's own, so answering it is exact; it is safe besides,
because the machine stops. -/
inductive Fault where
  /-- Raised by every bounds check of R87: a fetch, a data access, a push or a pop outside memory, or a register index
  of 12 or more. Safe: the spec stops here. -/
  | addressOutOfRange
  /-- Raised by dispatch of a byte that is not in the opcode map (R63, R88). Safe: the spec stops here. -/
  | unknownOpcode
deriving DecidableEq, Repr

/-- Why the model gives no meaning. No arm of `exec` and no step answers this: every instruction has its meaning. -/
inductive Refusal where
  /-- An instruction that has no meaning yet, raised by its arm of `exec` only. Safe: the model says nothing. -/
  | notModelled (mnemonic : String)
deriving DecidableEq, Repr

/-- The engine's status (R22). -/
inductive Status where
  /-- The initial status. -/
  | running
  /-- Terminal, entered only by HALT (R64, R99). -/
  | halted
  /-- Terminal, entered by a fatal error of this kind (R91, R95). -/
  | faulted (kind : Fault)
deriving DecidableEq, Repr, Inhabited

/-- The machine's state (R30): memory with its length, the register file, `stack_frame_size`, the status. -/
structure State where
  /-- The memory bank, MEM_LEN bytes (R31). -/
  mem : Memory
  /-- The 12 registers, IP, SP and FP among them (R13). -/
  regs : RegFile
  /-- `stack_frame_size`, a signed 16-bit count kept as its two's-complement pattern (R7, R21). -/
  sfs : Word
  /-- Running, Halted or Faulted (R22). -/
  status : Status
deriving DecidableEq, Repr, Inhabited

/-- The value of a register (R16). -/
def State.reg (s : State) (r : Reg) : Word := s.regs.get r

/-- The state with one register replaced (R17). -/
def State.setReg (s : State) (r : Reg) (v : Word) : State := { s with regs := s.regs.set r v }

/-- The state with `stack_frame_size` replaced (R21). -/
def State.setSfs (s : State) (v : Word) : State := { s with sfs := v }

/-- The state with the status replaced (R22). -/
def State.setStatus (s : State) (v : Status) : State := { s with status := v }

/-- The state with the memory bank replaced. -/
def State.setMem (s : State) (m : Memory) : State := { s with mem := m }

/-- The state after CONSTRUCT (R28, R100), for the MEM_LEN of log 1 and the INIT_MEM of log 2. -/
def State.reset : State :=
  { mem := ⟨resetMemLen, []⟩
    regs := RegFile.initial resetMemLen
    sfs := 0
    status := .running }

end Sys2Proof.Machine
end

