-- ==== Sys2Proof/Machine/Ops.lean ====
section
/-! DEFINITION. The shared operations over memory, IP and the stack: the bounds-checked accesses
(spec/20_memory.md R32, R33), the fetch primitives (spec/40_fetch_dispatch.md R58, R59), push and pop
(spec/44_stack.md R73, R74), and raising a fatal error (spec/60_exceptions.md R91). An operation answers `.ok` with its
result, or `.error` with the kind it raises; nothing after a raise is performed (R8). -/

namespace Sys2Proof.Machine

/-! ### Taking a fault -/

/-- `raise E()` (R8, R91): the step ends at this statement with the kind `k`. No handler runs, no state is saved, no
vector is read and no mode changes (R91, R93); there is no return from it (R94). -/
def raise {α : Type} (k : Fault) : Except Fault α := .error k

/-- The end of an instruction: its next state, or the fault it raised. A fault's contents are unspecified (R91, log 8),
so no state comes with it. -/
def conclude : Except Fault State → Host.Outcome State Fault Refusal
  | .ok s => .next s
  | .error k => .fault k

/-! ### Memory accesses -/

/-- `MemRead(a, 1)` (R32); the bound is compared in integers (R34). -/
def readU8 (a : Word) (s : State) : Except Fault Byte :=
  if s.mem.len ≤ a.toNat then raise .addressOutOfRange else .ok (s.mem.byteAt a.toNat)

/-- `MemWrite(a, 1, b)` (R32). -/
def writeU8 (a : Word) (b : Byte) (s : State) : Except Fault State :=
  if s.mem.len ≤ a.toNat then raise .addressOutOfRange else .ok (s.setMem (s.mem.putByte a.toNat b))

/-- `MemRead(a, 2)` (R33), big-endian (R35), at any alignment (R37). -/
def readU16 (a : Word) (s : State) : Except Fault Word :=
  if s.mem.len ≤ a.toNat + 1 then raise .addressOutOfRange else .ok (s.mem.wordAt a.toNat)

/-- `MemWrite(a, 2, w)` (R33): the check comes before either byte is touched. -/
def writeU16 (a : Word) (w : Word) (s : State) : Except Fault State :=
  if s.mem.len ≤ a.toNat + 1 then raise .addressOutOfRange else .ok (s.setMem (s.mem.putWord a.toNat w))

/-! ### Fetch primitives -/

/-- `fetch_u8()` (R58): the read comes first, so a failing fetch leaves IP. -/
def fetchU8 (s : State) : Except Fault (Byte × State) := do
  let b ← readU8 (s.reg .ip) s
  .ok (b, s.setReg .ip (s.reg .ip + 1))

/-- `fetch_u16()` (R59). -/
def fetchU16 (s : State) : Except Fault (Word × State) := do
  let w ← readU16 (s.reg .ip) s
  .ok (w, s.setReg .ip (s.reg .ip + 2))

/-- One operand fetch, by its width (R39), as the bytes it consumes in byte order (R51, R62). -/
def fetchField (f : OperandField) (s : State) : Except Fault (List Byte × State) :=
  match f with
  | .u8 => do
    let (b, s1) ← fetchU8 s
    .ok ([b], s1)
  | .u16 => do
    let (w, s1) ← fetchU16 s
    .ok ([hiByte w, loByte w], s1)

/-- All operand fetches of a format, in byte order (R62). -/
def fetchFields : List OperandField → State → Except Fault (List Byte × State)
  | [], s => .ok ([], s)
  | f :: fs, s => do
    let (b1, s1) ← fetchField f s
    let (b2, s2) ← fetchFields fs s1
    .ok (b1 ++ b2, s2)

/-- The fetch half of a step (R60, R61): the opcode byte, then UnknownOpcode for a byte outside the opcode map before
any operand is fetched (R63), then every operand byte (R62). The state that comes back has IP at the byte after the
instruction. -/
def fetchInstr (s : State) : Except Fault (Instr × State) := do
  let (op, s1) ← fetchU8 s
  match Opcode.ofByte op with
  | none => raise .unknownOpcode
  | some o => do
    let (operands, s2) ← fetchFields o.format.fields s1
    match decode (op :: operands) with
    | .ok (i, _) => .ok (i, s2)
    | .error _ => raise .unknownOpcode

/-! ### The stack primitives -/

/-- `push(v)` (R73): write at the SP from before the decrement, add 2 to `sfs`, move SP down by 2. The sums are modulo
2^16 (D3, log 4). -/
def push (v : Word) (s : State) : Except Fault State := do
  let sp := s.reg .sp
  let s1 ← writeU16 sp v s
  .ok ((s1.setSfs (s1.sfs + 2)).setReg .sp (sp - 2))

/-- `pop()` (R74): move SP up by 2, subtract 2 from `sfs`, read at the new SP. The word stays in memory. The sums are
modulo 2^16 (D3, log 4). -/
def pop (s : State) : Except Fault (Word × State) := do
  let s1 := s.setReg .sp (s.reg .sp + 2)
  let s2 := s1.setSfs (s1.sfs - 2)
  let v ← readU16 (s2.reg .sp) s2
  .ok (v, s2)

end Sys2Proof.Machine
end

