-- ==== Sys2Proof/Machine/Operands.lean ====
section
/-! DEFINITION. Register operands: the register-file port by index (spec/10_state.md R16, R17). It is the one place
where the index of a register operand is checked (spec/30_encoding.md R50, R54). -/

namespace Sys2Proof.Machine

/-- `x[i]` (R16): the value of register `i`, AddressOutOfRange for an index of 12 or more. It has no side effect. -/
def readIndex (i : Byte) (s : State) : Except Fault Word :=
  match Reg.ofIndex i with
  | some r => .ok (s.reg r)
  | none => raise .addressOutOfRange

/-- `x[i] <- v` (R17): AddressOutOfRange for an index of 12 or more; otherwise all 16 bits of register `i`. -/
def writeIndex (i : Byte) (v : Word) (s : State) : Except Fault State :=
  match Reg.ofIndex i with
  | some r => .ok (s.setReg r v)
  | none => raise .addressOutOfRange

end Sys2Proof.Machine
end

