-- ==== Sys2Proof/Machine/Alu.lean ====
section
/-! DEFINITION. The arithmetic unit (spec/42_alu.md): one operation, 16-bit addition modulo 65536. -/

namespace Sys2Proof.Machine

/-- The low 16 bits of the exact sum; the carry is recorded nowhere (R70). -/
def add16 (a b : Word) : Word := BitVec.ofNat 16 (a.toNat + b.toNat)

/-- ADD_REG_REG (R71): both operands are read, then ACC is written. -/
def execAddRegReg (a b : Byte) (s : State) : Host.Outcome State Fault Refusal :=
  conclude do
    let va ← readIndex a s
    let vb ← readIndex b s
    .ok (s.setReg .acc (add16 va vb))

end Sys2Proof.Machine
end

