-- ==== Sys2Proof/Machine/Flags.lean ====
section
/-! DEFINITION. The core has no flags, condition codes or predicates (spec/10_state.md R23): no instruction computes one.
The one condition it evaluates is the comparison of JMP_NOT_EQ, which reads no flag (spec/43_branch.md R72). -/

namespace Sys2Proof.Machine

/-- The condition of JMP_NOT_EQ: the literal differs from ACC, on the 16-bit values (R72). -/
def branchTaken (literal acc : Word) : Bool := literal != acc

end Sys2Proof.Machine
end

