-- ==== Sys2Proof/Machine/Branch.lean ====
section
/-! DEFINITION. The conditional branch (spec/43_branch.md). -/

namespace Sys2Proof.Machine

/-- JMP_NOT_EQ (R72): to the absolute address when the literal differs from ACC; otherwise IP stays after the
instruction. The target is not checked (R38). -/
def execJmpNotEq (literal addr : Word) (s : State) : Host.Outcome State Fault Refusal :=
  conclude (.ok (if branchTaken literal (s.reg .acc) then s.setReg .ip addr else s))

end Sys2Proof.Machine
end

