-- ==== Sys2Proof/Machine/Call.lean ====
section
/-! DEFINITION. The stack-frame unit (spec/45_call.md): the literal sequences of push_state and pop_state, and CALL and
RET over them. Nothing of the sequence is repaired: the 2-byte drift of `sfs` stays (R85, spec/90_conflicts.md C2, C3,
C4). -/

namespace Sys2Proof.Machine

/-- The registers push_state saves, in the order it pushes them (R80). -/
def savedRegs : List Reg := [.r1, .r2, .r3, .r4, .r5, .r6, .r7, .r8]

/-- Push the registers of a list, the first one first. -/
def pushRegs : List Reg → State → Except Fault State
  | [], s => .ok s
  | r :: rest, s => do
    let s1 ← push (s.reg r) s
    pushRegs rest s1

/-- `push_state()` (R80): R1..R8, IP, the marker `sfs + 2` read after those nine pushes; then `sfs` is 0 and FP is SP. -/
def pushState (s : State) : Except Fault State := do
  let s1 ← pushRegs savedRegs s
  let s2 ← push (s1.reg .ip) s1
  let m := s2.sfs + 2
  let s3 ← push m s2
  let s4 := s3.setSfs 0
  .ok (s4.setReg .fp (s4.reg .sp))

/-- Pop into the registers of a list, the first one first. -/
def popRegs : List Reg → State → Except Fault State
  | [], s => .ok s
  | r :: rest, s => do
    let (v, s1) ← pop s
    popRegs rest (s1.setReg r v)

/-- `repeat n times: pop()`, each word discarded (R81). -/
def discard : Nat → State → Except Fault State
  | 0, s => .ok s
  | n + 1, s => do
    let (_, s1) ← pop s
    discard n s1

/-- `pop_state()` (R81): from SP = FP, the marker (which also becomes `sfs`), IP, R8..R1, the argument count, that many
words; then FP is the old FP plus the marker. The count is unsigned (D10, log 10). -/
def popState (s : State) : Except Fault State := do
  let fp0 := s.reg .fp
  let (m, s1) ← pop (s.setReg .sp fp0)
  let (ret, s2) ← pop (s1.setSfs m)
  let s3 ← popRegs savedRegs.reverse (s2.setReg .ip ret)
  let (n, s4) ← pop s3
  let s5 ← discard n.toNat s4
  .ok (s5.setReg .fp (fp0 + m))

/-- CAL_LIT (R82): the saved IP is the address after the operand. -/
def execCalLit (addr : Word) (s : State) : Host.Outcome State Fault Refusal :=
  conclude do
    let s1 ← pushState s
    .ok (s1.setReg .ip addr)

/-- CAL_REG (R83): the target is read before push_state (D6, log 7). -/
def execCalReg (reg : Byte) (s : State) : Host.Outcome State Fault Refusal :=
  conclude do
    let addr ← readIndex reg s
    let s1 ← pushState s
    .ok (s1.setReg .ip addr)

/-- RET (R84). -/
def execRet (s : State) : Host.Outcome State Fault Refusal :=
  conclude (popState s)

end Sys2Proof.Machine
end

