-- ==== Sys2Proof/Machine/Control.lean ====
section
/-! DEFINITION. Machine control (spec/40_fetch_dispatch.md R64). -/

namespace Sys2Proof.Machine

/-- HALT (R64): registers, memory and `sfs` keep their values. -/
def execHalt (s : State) : Host.Outcome State Fault Refusal :=
  conclude (.ok (s.setStatus .halted))

end Sys2Proof.Machine
end

