-- ==== Sys2Proof/Machine/Move.lean ====
section
/-! DEFINITION. The move instructions (spec/41_move.md). Every meaning starts with IP at the byte after the
instruction: the operands have been fetched (spec/40_fetch_dispatch.md R62). -/

namespace Sys2Proof.Machine

/-- MOV_LIT_REG (R66). -/
def execMovLitReg (literal : Word) (reg : Byte) (s : State) : Host.Outcome State Fault Refusal :=
  conclude (writeIndex reg literal s)

/-- MOV_REG_REG (R67): the source is read before the destination is written. -/
def execMovRegReg (src dst : Byte) (s : State) : Host.Outcome State Fault Refusal :=
  conclude do
    let v ← readIndex src s
    writeIndex dst v s

/-- MOV_REG_MEM (R68): the register index is checked before memory is written. -/
def execMovRegMem (reg : Byte) (addr : Word) (s : State) : Host.Outcome State Fault Refusal :=
  conclude do
    let v ← readIndex reg s
    writeU16 addr v s

/-- MOV_MEM_REG (R69). -/
def execMovMemReg (addr : Word) (reg : Byte) (s : State) : Host.Outcome State Fault Refusal :=
  conclude do
    let v ← readU16 addr s
    writeIndex reg v s

end Sys2Proof.Machine
end

