-- ==== Sys2Proof/Machine/Stack.lean ====
section
/-! DEFINITION. The stack instructions (spec/44_stack.md) over the primitives `push` and `pop`. -/

namespace Sys2Proof.Machine

/-- PSH_LIT (R76). -/
def execPshLit (literal : Word) (s : State) : Host.Outcome State Fault Refusal :=
  conclude (push literal s)

/-- PSH_REG (R77): the register is read before the push. -/
def execPshReg (reg : Byte) (s : State) : Host.Outcome State Fault Refusal :=
  conclude do
    let v ← readIndex reg s
    push v s

/-- POP (R78): the register is written after the pop, so a destination SP replaces the incremented SP. -/
def execPop (reg : Byte) (s : State) : Host.Outcome State Fault Refusal :=
  conclude do
    let (v, s1) ← pop s
    writeIndex reg v s1

end Sys2Proof.Machine
end

