-- ==== Sys2Proof/Machine/Dispatch.lean ====
section
/-! DEFINITION. Dispatch (spec/40_fetch_dispatch.md R61): one arm per instruction. -/

namespace Sys2Proof.Machine

def exec (i : Instr) (s : State) : Host.Outcome State Fault Refusal :=
  match i with
  | .movLitReg literal reg => Sys2Proof.Machine.execMovLitReg literal reg s
  | .movRegReg src dst => Sys2Proof.Machine.execMovRegReg src dst s
  | .movRegMem reg addr => Sys2Proof.Machine.execMovRegMem reg addr s
  | .movMemReg addr reg => Sys2Proof.Machine.execMovMemReg addr reg s
  | .addRegReg a b => Sys2Proof.Machine.execAddRegReg a b s
  | .jmpNotEq literal addr => Sys2Proof.Machine.execJmpNotEq literal addr s
  | .pshLit literal => Sys2Proof.Machine.execPshLit literal s
  | .pshReg reg => Sys2Proof.Machine.execPshReg reg s
  | .pop reg => Sys2Proof.Machine.execPop reg s
  | .calLit addr => Sys2Proof.Machine.execCalLit addr s
  | .calReg reg => Sys2Proof.Machine.execCalReg reg s
  | .ret => Sys2Proof.Machine.execRet s
  | .halt => Sys2Proof.Machine.execHalt s

end Sys2Proof.Machine
end

