-- ==== Sys2Proof/Machine/Step.lean ====
section
/-! DEFINITION. One STEP (spec/40_fetch_dispatch.md R60), and where the host places an instruction so that the next
step fetches it. -/

namespace Sys2Proof.Machine

/-- STEP (R60): nothing in Halted, the same fault again in Faulted (R95), one instruction in Running. The status and
the contents that a fault leaves are given by the STEP transaction (Machine/Transactions.lean). -/
def step (s : State) : Host.Outcome State Fault Refusal :=
  match s.status with
  | .halted => .next s
  | .faulted k => .fault k
  | .running =>
    match fetchInstr s with
    | .error k => .fault k
    | .ok (i, s1) => exec i s1

/-- The state with an instruction of spec/opcode_table.json's numbering stored at IP, in a machine that is Running:
it stands for the host's LOAD of that instruction (R103, R104, log 15). -/
def State.withFetchWord (s : State) (nbits w : Nat) : State :=
  { s with mem := s.mem.install (s.reg .ip).toNat (tableBytes nbits w), status := .running }

end Sys2Proof.Machine
end

