-- ==== Sys2Proof/Machine/Transactions.lean ====
section
/-! DEFINITION. The five host-side transactions of the block boundary (spec/00_scope.md R9): CONSTRUCT, LOAD, STEP,
READ_REG, READ_MEM_BYTE. Each is atomic and has no timing (D16). -/

namespace Sys2Proof.Machine

/-! ### CONSTRUCT -/

/-- `CONSTRUCT(MEM_LEN, INIT_MEM)` (R100), the only reset (R102): none where the length is refused (R5, D1, log 3) or
`init` is no sequence of `len` bytes. -/
def construct (len : Nat) (init : List Byte) : Option State :=
  if Config.memLenOk len ∧ init.length = len then
    some { mem := Memory.ofBytes len init, regs := RegFile.initial len, sfs := 0, status := .running }
  else none

/-! ### LOAD -/

/-- What LOAD reports to the host (R103, D11). -/
inductive LoadResult where
  | installed
  | error (kind : Fault)
deriving DecidableEq, Repr

/-- `status := Faulted(k)` as a transaction performs it (R103): a machine that is Running becomes Faulted; Halted and
Faulted are terminal, and no transaction leaves them (R64, R95). -/
def enterFaulted (k : Fault) (s : State) : State :=
  match s.status with
  | .running => s.setStatus (.faulted k)
  | .halted => s
  | .faulted _ => s

/-- `LOAD(offset, bytes)` (R103) as the host sees it: the bytes verbatim; or, where they would pass the end of memory,
the error AddressOutOfRange, no byte written, and status Faulted(AddressOutOfRange) (D11, log 11). The spec defines it
only before the first STEP, where no status but Running and this Faulted can be. -/
def load (offset : Word) (bytes : List Byte) (s : State) : State × LoadResult :=
  if offset.toNat + bytes.length > s.mem.len then
    (enterFaulted .addressOutOfRange s, .error .addressOutOfRange)
  else (s.setMem (s.mem.putBytes offset.toNat bytes), .installed)

/-! ### STEP -/

/-- What STEP returns to the host (R60). -/
inductive StepResult where
  | running
  | halted
  | faulted (kind : Fault)
deriving DecidableEq, Repr

end Sys2Proof.Machine

namespace Sys2Proof.Config

open Sys2Proof.Machine in
/-- FREE VALUE (R91, D8, log 8): the registers, memory and `sfs` that a step which faults leaves behind are unspecified.
Only the contents drawn from it are used, by `faultedState`; it has no body, so nothing can be proved of them. -/
opaque faultedContents (k : Fault) (s : State) : State

end Sys2Proof.Config

namespace Sys2Proof.Machine

/-- The bank of `len` bytes with the bytes `f` gives. -/
def Memory.ofFunction (len : Nat) (f : Nat → Byte) : Memory := Memory.ofBytes len ((List.range len).map f)

/-- The state a step that faults in `s` leaves: status Faulted(k), the same memory length, and free contents (R91). -/
def faultedState (k : Fault) (s : State) : State :=
  { mem := Memory.ofFunction s.mem.len (Config.faultedContents k s).mem.byteAt
    regs := (Config.faultedContents k s).regs
    sfs := (Config.faultedContents k s).sfs
    status := .faulted k }

/-- What STEP returns after a step that raised nothing: Halted when the status is, else Running (R60). -/
def resultOf (s : State) : StepResult :=
  match s.status with
  | .running => .running
  | .halted => .halted
  | .faulted k => .faulted k

/-- `STEP()` (R60) as the host sees it: the state it leaves and the result it returns. In Halted and Faulted it changes
nothing (R95, R99). The refused case never arises: no step refuses. -/
def stepTransaction (s : State) : State × StepResult :=
  match s.status with
  | .halted => (s, .halted)
  | .faulted k => (s, .faulted k)
  | .running =>
    match step s with
    | .next s1 => (s1, resultOf s1)
    | .fault k => (faultedState k s, .faulted k)
    | .refused _ => (s, .running)

/-! ### The debug accessors -/

/-- `READ_REG(id)` (R96): an error to the host for an id of 12 or more; no state changes (D12, log 12). -/
def readRegAccessor (id : Byte) (s : State) : Except Fault Word := readIndex id s

/-- `READ_MEM_BYTE(addr)` (R96): an error to the host outside memory; no state changes (D12, log 12). -/
def readMemByteAccessor (addr : Word) (s : State) : Except Fault Byte := readU8 addr s

/-! ### Cause codes -/

/-- The codes of the two kinds (R86, D9, log 9). No rule reads them. -/
def faultCode : Fault → Nat
  | .addressOutOfRange => 1
  | .unknownOpcode => 2

end Sys2Proof.Machine
end

