-- ==== Sys2Proof/Safety.lean ====
section
/-! DEFINITION. The terms that claims about runs are stated in: the invariant, the addresses and registers an
instruction works on, the outcomes of a run (spec/40_fetch_dispatch.md R65), and the premise NO_WRAP
(spec/92_eei_decisions.md D3). -/

namespace Sys2Proof.Machine

/-! ### The invariant -/

/-- The states a machine can be in: memory has an admitted length (R5) and is in canonical form. -/
def State.Inv (s : State) : Prop := Config.memLenOk s.mem.len ∧ s.mem.wf = true

/-! ### How an instruction's bytes are fetched -/

/-- The bytes are instruction `i`'s encoding and are fetched as the rules of the instructions say: where they stand at
IP of a running machine, a step is `exec i` with IP moved past them; where memory ends before they do, a step that finds
the first of them at IP faults (R58, R59, R61, and the encoding and the fetch exceptions of R66 to R84). -/
def fetchesAs (i : Instr) (bytes : List Byte) (s : State) : Prop :=
  encode i = bytes ∧
  (Config.memLenOk s.mem.len → s.status = .running →
    ((s.reg .ip).toNat + bytes.length ≤ s.mem.len → s.mem.bytesFrom (s.reg .ip).toNat bytes.length = bytes →
      step s = exec i (s.setReg .ip (s.reg .ip + BitVec.ofNat 16 bytes.length))) ∧
    ((s.reg .ip).toNat < s.mem.len → bytes.head? = some (s.mem.byteAt (s.reg .ip).toNat) →
      s.mem.len < (s.reg .ip).toNat + bytes.length → step s = .fault .addressOutOfRange))

/-- Instruction `i` completes with IP at `target`, and it is the next step that faults, at its opcode fetch (R38). -/
def jumpsThenFaults (i : Instr) (target : Word) (s : State) : Prop :=
  ∃ t, exec i s = .next t ∧ t.reg .ip = target ∧ step t = .fault .addressOutOfRange

/-! ### Where the stack unit works -/

/-- The address of the word that the `k`-th push from SP = `sp` writes, counted from 0 (R73, R75). -/
def pushSlot (sp : Word) (k : Nat) : Word := sp - BitVec.ofNat 16 (2 * k)

/-- The address of the word that the `k`-th pop from SP = `sp` reads, counted from 1 (R74). -/
def popSlot (sp : Word) (k : Nat) : Word := sp + BitVec.ofNat 16 (2 * k)

/-- A word access at `a` lies in memory (R33). -/
def wordInMemory (a : Word) (s : State) : Prop := a.toNat + 1 < s.mem.len

/-- The ten words of a call frame, in the order push_state pushes them (R79): R1..R8, the return address, and the
frame-size marker `S0 + 20`. -/
def frameWords (s : State) : List Word :=
  [s.reg .r1, s.reg .r2, s.reg .r3, s.reg .r4, s.reg .r5, s.reg .r6, s.reg .r7, s.reg .r8, s.reg .ip, s.sfs + 20]

/-- The state a CALL to `target` leaves (R79, R80, R82, R83): the ten words of the frame in their slots below the old SP,
every other byte as before, SP and FP just below the frame, `sfs` 0, IP at the target, and the rest as before. -/
def callResult (s : State) (target : Word) (t : State) : Prop :=
  (∀ k (hk : k < (frameWords s).length), t.mem.wordAt (pushSlot (s.reg .sp) k).toNat = (frameWords s)[k]) ∧
  (∀ x, (∀ k, k < 10 → x ≠ (pushSlot (s.reg .sp) k).toNat ∧ x ≠ (pushSlot (s.reg .sp) k).toNat + 1) →
    t.mem.byteAt x = s.mem.byteAt x) ∧
  t.mem.len = s.mem.len ∧ t.reg .sp = s.reg .sp - 20 ∧ t.reg .fp = s.reg .sp - 20 ∧ t.sfs = 0 ∧
  t.reg .ip = target ∧ (∀ r, r ≠ .sp → r ≠ .fp → r ≠ .ip → t.reg r = s.reg r) ∧ t.status = s.status

/-- The frame-size marker that RET reads (R81). -/
def retMarker (s : State) : Word := s.mem.wordAt (popSlot (s.reg .fp) 1).toNat

/-- The argument count that RET reads (R81). -/
def retCount (s : State) : Word := s.mem.wordAt (popSlot (s.reg .fp) 11).toNat

/-- Every push of a call lies in memory (R82, R83). -/
def callInMemory (s : State) : Prop := ∀ k, k < 10 → wordInMemory (pushSlot (s.reg .sp) k) s

/-- Every pop of RET lies in memory (R84); the count is unsigned (D10, log 10). -/
def retInMemory (s : State) : Prop :=
  ∀ k, 1 ≤ k → k ≤ 11 + (retCount s).toNat → wordInMemory (popSlot (s.reg .fp) k) s

/-! ### What an instruction may write (R29) -/

/-- The registers an instruction may write beside the advance of IP by its fetch (R29). -/
def writtenRegs : Instr → List Reg
  | .movLitReg _ reg => (Reg.ofIndex reg).toList
  | .movRegReg _ dst => (Reg.ofIndex dst).toList
  | .movRegMem _ _ => []
  | .movMemReg _ reg => (Reg.ofIndex reg).toList
  | .addRegReg _ _ => [.acc]
  | .jmpNotEq _ _ => [.ip]
  | .pshLit _ => [.sp]
  | .pshReg _ => [.sp]
  | .pop reg => .sp :: (Reg.ofIndex reg).toList
  | .calLit _ => [.sp, .fp, .ip]
  | .calReg _ => [.sp, .fp, .ip]
  | .ret => [.sp, .ip, .r8, .r7, .r6, .r5, .r4, .r3, .r2, .r1, .fp]
  | .halt => []

/-- The instruction pushes or pops, so it writes `sfs` (R29). -/
def writesSfs : Instr → Bool
  | .movLitReg _ _ => false
  | .movRegReg _ _ => false
  | .movRegMem _ _ => false
  | .movMemReg _ _ => false
  | .addRegReg _ _ => false
  | .jmpNotEq _ _ => false
  | .pshLit _ => true
  | .pshReg _ => true
  | .pop _ => true
  | .calLit _ => true
  | .calReg _ => true
  | .ret => true
  | .halt => false

/-- The word addresses an instruction stores to, in a state with IP past the instruction (R39): the absolute address of
MOV_REG_MEM, the SP of a push, the ten push addresses of a call. -/
def storedWords (i : Instr) (s : State) : List Word :=
  match i with
  | .movLitReg _ _ => []
  | .movRegReg _ _ => []
  | .movRegMem _ addr => [addr]
  | .movMemReg _ _ => []
  | .addRegReg _ _ => []
  | .jmpNotEq _ _ => []
  | .pshLit _ => [s.reg .sp]
  | .pshReg _ => [s.reg .sp]
  | .pop _ => []
  | .calLit _ => (List.range 10).map (pushSlot (s.reg .sp))
  | .calReg _ => (List.range 10).map (pushSlot (s.reg .sp))
  | .ret => []
  | .halt => []

/-! ### Runs (R65) -/

/-- `n` steps. -/
def run (n : Nat) (s : State) : Host.Outcome State Fault Refusal := Host.Core.run Sys2Proof.core n s

/-- The run from `s` ends: after `n` steps it is Halted in `t` (R65). -/
def runEnds (s : State) (n : Nat) (t : State) : Prop := run n s = .next t ∧ t.status = .halted

/-- The run from `s` faults with kind `k` within `n` steps (R65). -/
def runFaults (s : State) (n : Nat) (k : Fault) : Prop := run n s = .fault k

/-- The run from `s` diverges: it never ends and never faults (R65). -/
def runDiverges (s : State) : Prop := ∀ n, ∃ t, run n s = .next t ∧ t.status = .running

/-! ### NO_WRAP (D3) -/

/-- `n` pushes from here wrap neither SP nor the signed `sfs`. -/
def pushesNoWrap (n : Nat) (s : State) : Prop := 2 * n ≤ (s.reg .sp).toNat ∧ s.sfs.toInt + 2 * n ≤ 32767

/-- `n` pops from SP = `sp` and `sfs` = `c` wrap neither of them. -/
def popsNoWrap (n : Nat) (sp c : Word) : Prop := sp.toNat + 2 * n ≤ 65535 ∧ -32768 ≤ c.toInt - 2 * n

/-- The premise NO_WRAP for one instruction (D3): no push runs with SP below 2, no pop with SP above 0xFFFD, `sfs` stays
in the signed range at every update, and RET's FP restore stays in 0..0xFFFF. -/
def noWrap (i : Instr) (s : State) : Prop :=
  match i with
  | .pshLit _ => pushesNoWrap 1 s
  | .pshReg _ => pushesNoWrap 1 s
  | .pop _ => popsNoWrap 1 (s.reg .sp) s.sfs
  | .calLit _ => pushesNoWrap 10 s
  | .calReg _ => pushesNoWrap 10 s
  | .ret =>
    popsNoWrap 1 (s.reg .fp) s.sfs ∧ popsNoWrap (10 + (retCount s).toNat) (popSlot (s.reg .fp) 1) (retMarker s) ∧
      0 ≤ ((s.reg .fp).toNat : Int) + (retMarker s).toInt ∧
      ((s.reg .fp).toNat : Int) + (retMarker s).toInt ≤ 65535
  | .movLitReg _ _ => True
  | .movRegReg _ _ => True
  | .movRegMem _ _ => True
  | .movMemReg _ _ => True
  | .addRegReg _ _ => True
  | .jmpNotEq _ _ => True
  | .halt => True

end Sys2Proof.Machine
end

