-- ==== Sys2Proof/WellFormed.lean ====
section
/-! DEFINITION. Well-formedness. Every value of type Instr is a well-formed instruction of the spec: a register byte
may be any of 0..255 and a literal or address has no illegal value (spec/30_encoding.md R54). What can be ill-formed is
a sequence of bytes offered as one instruction (R48, R52), and what can be outside the register file is a register
operand (R13, R16). Both checks are here. -/

namespace Sys2Proof

/-- The bytes spell exactly one instruction: a known opcode byte and as many bytes as its row has (R48, R52, R53). -/
def wellFormedBytes : List Byte → Bool
  | [] => false
  | op :: rest =>
    match Opcode.ofByte op with
    | none => false
    | some o => rest.length + 1 == o.length

/-- The register operand bytes of an instruction, in the order of its bytes (R49, R50). -/
def Instr.regOperands : Instr → List Byte
  | .movLitReg _ reg => [reg]
  | .movRegReg src dst => [src, dst]
  | .movRegMem reg _ => [reg]
  | .movMemReg _ reg => [reg]
  | .addRegReg a b => [a, b]
  | .jmpNotEq _ _ => []
  | .pshLit _ => []
  | .pshReg reg => [reg]
  | .pop reg => [reg]
  | .calLit _ => []
  | .calReg reg => [reg]
  | .ret => []
  | .halt => []

/-- Every register operand names one of the 12 registers (R13). An instruction that fails this still decodes; it
raises AddressOutOfRange when it runs (R54). -/
def Instr.regsInFile (i : Instr) : Bool := i.regOperands.all fun r => decide (r.toNat < 12)

end Sys2Proof
end

