-- ==== Sys2Proof/Certificates/Slice0/Obligations.lean ====
section
/-! DEFINITION. The statements for the provers. Each says in its docstring which rule of spec/ it formalises, and, where
it rests on a decision that the spec marks as its own (a row D<n> of spec/92_eei_decisions.md) or on a choice of the
model, names that row or the entry of the assumption log. -/

open Sys2Proof Sys2Proof.Machine

/-! ### Encoding -/

/-- Decoding the bytes of any instruction, with any bytes after them, gives that instruction and leaves those bytes
(R48, R49, R50, R52). -/
def Obligations.DecodeOfEncodeIsTheInstruction : Prop :=
  ∀ (i : Instr) (rest : List Byte), decode (encode i ++ rest) = .ok (i, rest)

/-- Whatever decodes was the encoding of what it decodes to: no two byte sequences spell one instruction, and no bit of
one is ignored (R48, R49, R50, R52). -/
def Obligations.DecodedBytesAreTheEncoding : Prop :=
  ∀ (bytes rest : List Byte) (i : Instr), decode bytes = .ok (i, rest) → bytes = encode i ++ rest

/-- Some words of the opcode table, one of every format, written out from R49 and R52. -/
def Obligations.SampleWordsDecode : Prop :=
  decode [0x10, 0x12, 0x34, 0x02] = .ok (.movLitReg 0x1234 2, []) ∧
  decode [0x11, 0x02, 0x03] = .ok (.movRegReg 2 3, []) ∧
  decode [0x12, 0x01, 0x00, 0x80] = .ok (.movRegMem 1 0x0080, []) ∧
  decode [0x15, 0x00, 0x05, 0x12, 0x34] = .ok (.jmpNotEq 0x0005 0x1234, []) ∧
  decode [0x17, 0x33, 0x44] = .ok (.pshLit 0x3344, []) ∧
  decode [0x1A, 0x04] = .ok (.pop 4, []) ∧
  decode [0x60] = .ok (.ret, [])

/-- The opcode map (R52): for each opcode byte, the mnemonic, the operand bytes in order, and so the length; any other
byte spells no instruction. -/
def Obligations.OpcodeMapIsTheTable : Prop :=
  (∀ (a b c d : Byte) (rest : List Byte),
    decode (0x10 :: a :: b :: c :: rest) = .ok (.movLitReg (combine a b) c, rest) ∧
    decode (0x11 :: a :: b :: rest) = .ok (.movRegReg a b, rest) ∧
    decode (0x12 :: a :: b :: c :: rest) = .ok (.movRegMem a (combine b c), rest) ∧
    decode (0x13 :: a :: b :: c :: rest) = .ok (.movMemReg (combine a b) c, rest) ∧
    decode (0x14 :: a :: b :: rest) = .ok (.addRegReg a b, rest) ∧
    decode (0x15 :: a :: b :: c :: d :: rest) = .ok (.jmpNotEq (combine a b) (combine c d), rest) ∧
    decode (0x17 :: a :: b :: rest) = .ok (.pshLit (combine a b), rest) ∧
    decode (0x18 :: a :: rest) = .ok (.pshReg a, rest) ∧
    decode (0x1A :: a :: rest) = .ok (.pop a, rest) ∧
    decode (0x5E :: a :: b :: rest) = .ok (.calLit (combine a b), rest) ∧
    decode (0x5F :: a :: rest) = .ok (.calReg a, rest) ∧
    decode (0x60 :: rest) = .ok (.ret, rest) ∧
    decode (0xFF :: rest) = .ok (.halt, rest)) ∧
  ∀ (op : Byte) (rest : List Byte),
    op ∉ ([0x10, 0x11, 0x12, 0x13, 0x14, 0x15, 0x17, 0x18, 0x1A, 0x5E, 0x5F, 0x60, 0xFF] : List Byte) →
      decode (op :: rest) = .error (.unknownOpcode op)

/-! ### The step -/

/-- Where the bytes at IP decode to an instruction and lie in memory, a step of a running machine is `exec` of that
instruction in the state with IP moved past its bytes (R60, R61). That all operand bytes are fetched before the
instruction does its work, so that `exec` starts with IP past them, is the order of R62, the spec's decision D5 (log 6). -/
def Obligations.StepRunsTheDecodedInstruction : Prop :=
  ∀ (s : State) (i : Instr), Config.memLenOk s.mem.len → s.status = .running →
    (s.reg .ip).toNat + i.length ≤ s.mem.len →
    decode (s.mem.bytesFrom (s.reg .ip).toNat i.length) = .ok (i, []) →
    step s = exec i (s.setReg .ip (s.reg .ip + BitVec.ofNat 16 i.length))

/-- The fetch primitives (R58, R59): the byte, or the big-endian word, at IP, with IP moved past it and nothing else
changed; AddressOutOfRange where it lies outside memory. -/
def Obligations.FetchPrimitivesReadAtIp : Prop :=
  ∀ s : State,
    ((s.reg .ip).toNat < s.mem.len →
      fetchU8 s = .ok (s.mem.byteAt (s.reg .ip).toNat, s.setReg .ip (s.reg .ip + 1))) ∧
    (s.mem.len ≤ (s.reg .ip).toNat → fetchU8 s = .error .addressOutOfRange) ∧
    ((s.reg .ip).toNat + 1 < s.mem.len →
      fetchU16 s = .ok (combine (s.mem.byteAt (s.reg .ip).toNat) (s.mem.byteAt ((s.reg .ip).toNat + 1)),
        s.setReg .ip (s.reg .ip + 2))) ∧
    (s.mem.len ≤ (s.reg .ip).toNat + 1 → fetchU16 s = .error .addressOutOfRange)

/-- A step whose opcode byte, or any operand byte, lies outside memory faults with AddressOutOfRange (R87, the fetch
rows). -/
def Obligations.TruncatedInstructionFaults : Prop :=
  ∀ s : State, Config.memLenOk s.mem.len → s.status = .running →
    (s.mem.len ≤ (s.reg .ip).toNat → step s = .fault .addressOutOfRange) ∧
    ∀ o : Opcode, (s.reg .ip).toNat < s.mem.len → s.mem.byteAt (s.reg .ip).toNat = o.byte →
      s.mem.len < (s.reg .ip).toNat + o.length → step s = .fault .addressOutOfRange

/-- UnknownOpcode is raised exactly when the opcode byte is fetched and is one of the 243 illegal values, whatever
stands after it, and no instruction's own work raises it (R53, R88). -/
def Obligations.UnknownOpcodeExactlyOnIllegalBytes : Prop :=
  (∀ s : State, Config.memLenOk s.mem.len → s.status = .running →
    (step s = .fault .unknownOpcode ↔
      (s.reg .ip).toNat < s.mem.len ∧
      let b := (s.mem.byteAt (s.reg .ip).toNat).toNat
      b ≤ 0x0F ∨ b = 0x16 ∨ b = 0x19 ∨ (0x1B ≤ b ∧ b ≤ 0x5D) ∨ (0x61 ≤ b ∧ b ≤ 0xFE))) ∧
  ∀ (i : Instr) (s : State), exec i s ≠ .fault .unknownOpcode

/-- Outside Running a step does nothing: in Halted the state stays, in Faulted the same fault comes again (R60, R95;
the status Faulted and its stickiness are the spec's decision D7, log 8). -/
def Obligations.StepOutsideRunningDoesNothing : Prop :=
  ∀ s : State, (s.status = .halted → step s = .next s) ∧ ∀ k, s.status = .faulted k → step s = .fault k

/-- No step and no instruction is refused: every instruction of the closed set has its meaning (R12). -/
def Obligations.StepNeverRefuses : Prop :=
  (∀ (s : State) (r : Refusal), step s ≠ .refused r) ∧ ∀ (i : Instr) (s : State) (r : Refusal), exec i s ≠ .refused r

/-- A fetch that succeeds moves IP by the length of the instruction without wrapping, at most to the end of memory, and
changes nothing else (R19; modulo 2^16 by the spec's decision D3, log 4). -/
def Obligations.FetchNeverWrapsIp : Prop :=
  ∀ (s t : State) (i : Instr), Config.memLenOk s.mem.len → fetchInstr s = .ok (i, t) →
    (t.reg .ip).toNat = (s.reg .ip).toNat + i.length ∧ (t.reg .ip).toNat ≤ s.mem.len ∧
    (∀ r, r ≠ .ip → t.reg r = s.reg r) ∧ t.mem = s.mem ∧ t.sfs = s.sfs ∧ t.status = s.status

/-- Every step keeps the invariant: an admitted memory length, and memory in its canonical form (R5, R31). -/
def Obligations.StepKeepsInvariant : Prop :=
  ∀ s t : State, s.Inv → step s = .next t → t.Inv

/-- The state after reset has the invariant. Its memory length and contents are the model's choice (log 1, log 2). -/
def Obligations.ResetHasInvariant : Prop := State.reset.Inv

/-- No step changes the length of memory (R5, R31). -/
def Obligations.StepNeverResizesMemory : Prop :=
  ∀ s t : State, step s = .next t → t.mem.len = s.mem.len

/-- HALT (R64, R99): the byte 0xFF at IP of a running machine makes it Halted with IP past that byte and nothing else
changed; no other step enters Halted; and in Halted a step changes nothing. -/
def Obligations.HaltedOnlyByHaltAndTerminal : Prop :=
  (∀ s : State, s.status = .running → (s.reg .ip).toNat < s.mem.len → s.mem.byteAt (s.reg .ip).toNat = 0xFF →
    step s = .next ((s.setReg .ip (s.reg .ip + 1)).setStatus .halted)) ∧
  (∀ s t : State, s.status ≠ .halted → step s = .next t → t.status = .halted →
    s.status = .running ∧ (s.reg .ip).toNat < s.mem.len ∧ s.mem.byteAt (s.reg .ip).toNat = 0xFF) ∧
  ∀ s : State, s.status = .halted → step s = .next s

/-! ### Registers -/

/-- The twelve registers and their fixed indices (R13). -/
def Obligations.RegisterIndexTable : Prop :=
  Reg.ofIndex 0 = some .ip ∧ Reg.ofIndex 1 = some .acc ∧ Reg.ofIndex 2 = some .r1 ∧ Reg.ofIndex 3 = some .r2 ∧
  Reg.ofIndex 4 = some .r3 ∧ Reg.ofIndex 5 = some .r4 ∧ Reg.ofIndex 6 = some .r5 ∧ Reg.ofIndex 7 = some .r6 ∧
  Reg.ofIndex 8 = some .r7 ∧ Reg.ofIndex 9 = some .r8 ∧ Reg.ofIndex 10 = some .sp ∧ Reg.ofIndex 11 = some .fp ∧
  ∀ i : Byte, 12 ≤ i.toNat → Reg.ofIndex i = none

/-- The register port (R16, R17): an index of 12 or more raises; below 12, a read gives the register, and a write is
read back and changes no other register and nothing else. No register is exempt. -/
def Obligations.RegisterPortReadsAndWrites : Prop :=
  ∀ (s : State) (i : Byte) (v : Word),
    (12 ≤ i.toNat → readIndex i s = .error .addressOutOfRange ∧ writeIndex i v s = .error .addressOutOfRange) ∧
    (∀ r, Reg.ofIndex i = some r → readIndex i s = .ok (s.reg r)) ∧
    (i.toNat < 12 → ∃ t, writeIndex i v s = .ok t ∧ readIndex i t = .ok v ∧
      (∀ j, j ≠ i → readIndex j t = readIndex j s) ∧ t.mem = s.mem ∧ t.sfs = s.sfs ∧ t.status = s.status)

/-! ### Memory -/

/-- Byte accesses (R32): AddressOutOfRange at or above MEM_LEN; otherwise the byte at the address, and a write changes
that byte only. The premise that memory is in canonical form is an invariant (StepKeepsInvariant). -/
def Obligations.ByteAccessesAreBoundsChecked : Prop :=
  ∀ (s : State) (a : Word) (b : Byte),
    (s.mem.len ≤ a.toNat → readU8 a s = .error .addressOutOfRange ∧ writeU8 a b s = .error .addressOutOfRange) ∧
    (a.toNat < s.mem.len → readU8 a s = .ok (s.mem.byteAt a.toNat)) ∧
    (s.mem.wf = true → a.toNat < s.mem.len → ∃ t, writeU8 a b s = .ok t ∧
      (∀ x, t.mem.byteAt x = if x = a.toNat then b else s.mem.byteAt x) ∧ t.mem.len = s.mem.len ∧
      (∀ r, t.reg r = s.reg r) ∧ t.sfs = s.sfs ∧ t.status = s.status)

/-- Word accesses (R33): AddressOutOfRange where `a + 1` is at or above MEM_LEN in integers, before any byte is
touched; otherwise the two bytes, the high one at `a`. The premise that memory is in canonical form is an invariant
(StepKeepsInvariant). -/
def Obligations.WordAccessesAreBigEndianAndChecked : Prop :=
  ∀ (s : State) (a w : Word),
    (s.mem.len ≤ a.toNat + 1 → readU16 a s = .error .addressOutOfRange ∧ writeU16 a w s = .error .addressOutOfRange) ∧
    (a.toNat + 1 < s.mem.len →
      readU16 a s = .ok (combine (s.mem.byteAt a.toNat) (s.mem.byteAt (a.toNat + 1)))) ∧
    (s.mem.wf = true → a.toNat + 1 < s.mem.len → ∃ t, writeU16 a w s = .ok t ∧
      (∀ x, t.mem.byteAt x =
        if x = a.toNat then hiByte w else if x = a.toNat + 1 then loByte w else s.mem.byteAt x) ∧
      t.mem.len = s.mem.len ∧ (∀ r, t.reg r = s.reg r) ∧ t.sfs = s.sfs ∧ t.status = s.status)

/-- Mixed-width and overlapping views (R36): a word written is read back, and by its bytes; a second word written one
byte higher shares the byte between them. -/
def Obligations.OverlappingWordsShareTheirByte : Prop :=
  ∀ (s s1 s2 : State) (a v w : Word), s.Inv →
    writeU16 a v s = .ok s1 → writeU16 (a + 1) w s1 = .ok s2 →
    readU16 a s1 = .ok v ∧ readU8 a s1 = .ok (hiByte v) ∧ readU8 (a + 1) s1 = .ok (loByte v) ∧
    readU16 a s2 = .ok (combine (hiByte v) (hiByte w)) ∧ readU16 (a + 1) s2 = .ok w

/-- Two banks in canonical form with the same length and the same bytes are the same data (R30, R31). -/
def Obligations.CanonicalMemoriesAreEqual : Prop :=
  ∀ m m' : Memory, m.wf = true → m'.wf = true → m.len = m'.len → (∀ a, m.byteAt a = m'.byteAt a) → m = m'

/-- A stored word is what a later fetch at its address reads (R43, R46). -/
def Obligations.StoreIsSeenByFetch : Prop :=
  ∀ (s t : State) (a w : Word), s.mem.wf = true → writeU16 a w s = .ok t → t.reg .ip = a →
    fetchU16 t = .ok (w, t.setReg .ip (a + 2)) ∧ fetchU8 t = .ok (hiByte w, t.setReg .ip (a + 1))

/-! ### Moves, addition, branch, halt: what each does -/

/-- MOV_LIT_REG (R66): the literal into the register named, any of the twelve, and nothing else; an index of 12 or more
faults; its four bytes are fetched as R66 says. -/
def Obligations.MovLitRegResult : Prop :=
  ∀ (s : State) (literal : Word) (reg : Byte),
    (∀ r, Reg.ofIndex reg = some r → exec (.movLitReg literal reg) s = .next (s.setReg r literal)) ∧
    (12 ≤ reg.toNat → exec (.movLitReg literal reg) s = .fault .addressOutOfRange) ∧
    fetchesAs (.movLitReg literal reg) [0x10, hiByte literal, loByte literal, reg] s

/-- MOV_REG_REG (R67): the source's value into the destination and nothing else; either index of 12 or more faults; its
three bytes are fetched as R67 says. That a source IP so reads the address after the instruction is the spec's decision
D5 (log 6). -/
def Obligations.MovRegRegResult : Prop :=
  ∀ (s : State) (src dst : Byte),
    (∀ q r, Reg.ofIndex src = some q → Reg.ofIndex dst = some r →
      exec (.movRegReg src dst) s = .next (s.setReg r (s.reg q))) ∧
    (12 ≤ src.toNat ∨ 12 ≤ dst.toNat → exec (.movRegReg src dst) s = .fault .addressOutOfRange) ∧
    fetchesAs (.movRegReg src dst) [0x11, src, dst] s

/-- MOV_REG_MEM (R68): the register's two bytes at the address, high byte first, and no other byte, register or counter
changes; an index of 12 or more, or a word that is not whole in memory, faults; its four bytes are fetched as R68 says.
That a register IP so stores the address after the instruction is the spec's decision D5 (log 6). The premise that memory is in canonical form is an invariant (StepKeepsInvariant). -/
def Obligations.MovRegMemStoresTheWord : Prop :=
  ∀ (s : State) (reg : Byte) (addr : Word),
    (∀ r, s.mem.wf = true → Reg.ofIndex reg = some r → addr.toNat + 1 < s.mem.len →
      ∃ t, exec (.movRegMem reg addr) s = .next t ∧ t.mem.byteAt addr.toNat = hiByte (s.reg r) ∧
        t.mem.byteAt (addr.toNat + 1) = loByte (s.reg r) ∧
        (∀ x, x ≠ addr.toNat → x ≠ addr.toNat + 1 → t.mem.byteAt x = s.mem.byteAt x) ∧ t.mem.len = s.mem.len ∧
        (∀ q, t.reg q = s.reg q) ∧ t.sfs = s.sfs ∧ t.status = s.status) ∧
    (12 ≤ reg.toNat ∨ s.mem.len ≤ addr.toNat + 1 → exec (.movRegMem reg addr) s = .fault .addressOutOfRange) ∧
    fetchesAs (.movRegMem reg addr) [0x12, reg, hiByte addr, loByte addr] s

/-- MOV_MEM_REG (R69): the big-endian word at the address into the register and nothing else; a word that is not whole
in memory, or an index of 12 or more, faults; its four bytes are fetched as R69 says. -/
def Obligations.MovMemRegResult : Prop :=
  ∀ (s : State) (addr : Word) (reg : Byte),
    (∀ r, Reg.ofIndex reg = some r → addr.toNat + 1 < s.mem.len →
      exec (.movMemReg addr reg) s =
        .next (s.setReg r (combine (s.mem.byteAt addr.toNat) (s.mem.byteAt (addr.toNat + 1))))) ∧
    (12 ≤ reg.toNat ∨ s.mem.len ≤ addr.toNat + 1 → exec (.movMemReg addr reg) s = .fault .addressOutOfRange) ∧
    fetchesAs (.movMemReg addr reg) [0x13, hiByte addr, loByte addr, reg] s

/-- ADD_REG_REG (R70, R71): ACC becomes the sum modulo 65536 of the two registers' old values, and nothing else
changes: no carry, no flag; either index of 12 or more faults; its three bytes are fetched as R71 says. That an operand
IP so reads the address after the instruction is the spec's decision D5 (log 6). -/
def Obligations.AddRegRegWrapsIntoAcc : Prop :=
  ∀ (s : State) (a b : Byte),
    (∀ q r, Reg.ofIndex a = some q → Reg.ofIndex b = some r →
      ∃ t, exec (.addRegReg a b) s = .next t ∧
        (t.reg .acc).toNat = ((s.reg q).toNat + (s.reg r).toNat) % 65536 ∧
        (∀ x, x ≠ .acc → t.reg x = s.reg x) ∧ t.mem = s.mem ∧ t.sfs = s.sfs ∧ t.status = s.status) ∧
    (12 ≤ a.toNat ∨ 12 ≤ b.toNat → exec (.addRegReg a b) s = .fault .addressOutOfRange) ∧
    fetchesAs (.addRegReg a b) [0x14, a, b] s

/-- JMP_NOT_EQ (R72): IP becomes the target exactly when the literal differs from ACC, and stays after the instruction
otherwise; nothing else changes and it never faults, but a target outside memory faults on the next step; its five
bytes are fetched as R72 says. -/
def Obligations.JmpNotEqResult : Prop :=
  ∀ (s : State) (literal addr : Word),
    (literal ≠ s.reg .acc → exec (.jmpNotEq literal addr) s = .next (s.setReg .ip addr)) ∧
    (literal = s.reg .acc → exec (.jmpNotEq literal addr) s = .next s) ∧
    (s.status = .running → s.mem.len ≤ addr.toNat → step (s.setReg .ip addr) = .fault .addressOutOfRange) ∧
    fetchesAs (.jmpNotEq literal addr) [0x15, hiByte literal, loByte literal, hiByte addr, loByte addr] s

/-- Whatever sets IP to a target at or beyond the end of memory completes, and the next step faults (R38): a taken
JMP_NOT_EQ; MOV_LIT_REG, MOV_REG_REG, MOV_MEM_REG and POP into IP; CAL_LIT, CAL_REG and RET. The stack addresses are modulo
2^16, RET's count is unsigned and CAL_REG's target is read before its pushes, the spec's decisions D3, D10 and D6 (log 4,
log 10, log 7). -/
def Obligations.BadTargetFaultsAtNextFetch : Prop :=
  ∀ (s : State) (target : Word), s.status = .running → s.mem.len ≤ target.toNat →
    (∀ literal, literal ≠ s.reg .acc → jumpsThenFaults (.jmpNotEq literal target) target s) ∧
    jumpsThenFaults (.movLitReg target 0) target s ∧
    (∀ src q, Reg.ofIndex src = some q → s.reg q = target → jumpsThenFaults (.movRegReg src 0) target s) ∧
    (∀ addr : Word, addr.toNat + 1 < s.mem.len → s.mem.wordAt addr.toNat = target →
      jumpsThenFaults (.movMemReg addr 0) target s) ∧
    ((s.reg .sp + 2).toNat + 1 < s.mem.len → s.mem.wordAt (s.reg .sp + 2).toNat = target →
      jumpsThenFaults (.pop 0) target s) ∧
    (callInMemory s → jumpsThenFaults (.calLit target) target s) ∧
    (∀ reg r, Reg.ofIndex reg = some r → s.reg r = target → callInMemory s →
      jumpsThenFaults (.calReg reg) target s) ∧
    (retInMemory s → s.mem.wordAt (popSlot (s.reg .fp) 2).toNat = target → jumpsThenFaults .ret target s)

/-- A source operand of index 0 reads the address after the instruction, in a step of each instruction that has a source
register (R62; the order inside an instruction is the spec's decision D5, log 6): MOV_REG_REG leaves it in the
destination, MOV_REG_MEM stores it, ADD_REG_REG adds it on either side, PSH_REG pushes it, and CAL_REG calls it and pushes
it as the return address (its stack addresses modulo 2^16, D3, log 4). The premise that memory is in canonical form is
an invariant (StepKeepsInvariant). -/
def Obligations.SourceIpIsTheNextAddress : Prop :=
  ∀ s : State, s.Inv → s.status = .running →
    (∀ dst r, (s.reg .ip).toNat + 3 ≤ s.mem.len → s.mem.bytesFrom (s.reg .ip).toNat 3 = [0x11, 0x00, dst] →
      Reg.ofIndex dst = some r → step s = .next ((s.setReg .ip (s.reg .ip + 3)).setReg r (s.reg .ip + 3))) ∧
    (∀ addr : Word, (s.reg .ip).toNat + 4 ≤ s.mem.len →
      s.mem.bytesFrom (s.reg .ip).toNat 4 = [0x12, 0x00, hiByte addr, loByte addr] → addr.toNat + 1 < s.mem.len →
      ∃ t, step s = .next t ∧ t.mem.wordAt addr.toNat = s.reg .ip + 4 ∧ t.reg .ip = s.reg .ip + 4) ∧
    (∀ b r, (s.reg .ip).toNat + 3 ≤ s.mem.len → s.mem.bytesFrom (s.reg .ip).toNat 3 = [0x14, 0x00, b] →
      Reg.ofIndex b = some r → ∃ t, step s = .next t ∧ t.reg .ip = s.reg .ip + 3 ∧
        t.reg .acc = (s.reg .ip + 3) + (if r = .ip then s.reg .ip + 3 else s.reg r)) ∧
    (∀ a r, (s.reg .ip).toNat + 3 ≤ s.mem.len → s.mem.bytesFrom (s.reg .ip).toNat 3 = [0x14, a, 0x00] →
      Reg.ofIndex a = some r → ∃ t, step s = .next t ∧ t.reg .ip = s.reg .ip + 3 ∧
        t.reg .acc = (if r = .ip then s.reg .ip + 3 else s.reg r) + (s.reg .ip + 3)) ∧
    ((s.reg .ip).toNat + 2 ≤ s.mem.len → s.mem.bytesFrom (s.reg .ip).toNat 2 = [0x18, 0x00] →
      (s.reg .sp).toNat + 1 < s.mem.len →
      ∃ t, step s = .next t ∧ t.mem.wordAt (s.reg .sp).toNat = s.reg .ip + 2 ∧ t.reg .ip = s.reg .ip + 2) ∧
    ((s.reg .ip).toNat + 2 ≤ s.mem.len → s.mem.bytesFrom (s.reg .ip).toNat 2 = [0x5F, 0x00] → callInMemory s →
      ∃ t, step s = .next t ∧ t.reg .ip = s.reg .ip + 2 ∧
        t.mem.wordAt (pushSlot (s.reg .sp) 8).toNat = s.reg .ip + 2)

/-- HALT's own effect (R64): the status, and nothing else; its one byte is fetched as R64 says. -/
def Obligations.HaltResult : Prop :=
  ∀ s : State, exec .halt s = .next (s.setStatus .halted) ∧ fetchesAs .halt [0xFF] s

/-! ### The stack -/

/-- PSH_LIT and PSH_REG (R73, R76, R77): the word stands at the old SP, high byte first, no other byte changes, SP is 2
lower and `sfs` 2 higher (modulo 2^16, the spec's decision D3, log 4), and nothing else changes. SP itself pushes its
old value. A word that is not whole in memory faults. The premise that memory is in canonical form is an invariant
(StepKeepsInvariant). -/
def Obligations.PushesStoreAtTheOldSp : Prop :=
  ∀ (s : State) (v : Word) (i : Instr),
    (i = .pshLit v ∨ ∃ reg r, i = .pshReg reg ∧ Reg.ofIndex reg = some r ∧ v = s.reg r) →
    (s.mem.wf = true → (s.reg .sp).toNat + 1 < s.mem.len →
      ∃ t, exec i s = .next t ∧ t.mem.byteAt (s.reg .sp).toNat = hiByte v ∧
        t.mem.byteAt ((s.reg .sp).toNat + 1) = loByte v ∧
        (∀ x, x ≠ (s.reg .sp).toNat → x ≠ (s.reg .sp).toNat + 1 → t.mem.byteAt x = s.mem.byteAt x) ∧
        t.mem.len = s.mem.len ∧ t.reg .sp = s.reg .sp - 2 ∧ t.sfs = s.sfs + 2 ∧
        (∀ q, q ≠ .sp → t.reg q = s.reg q) ∧ t.status = s.status) ∧
    (s.mem.len ≤ (s.reg .sp).toNat + 1 → exec i s = .fault .addressOutOfRange)

/-- PSH_REG with an index of 12 or more faults (R77). -/
def Obligations.PushOfBadIndexFaults : Prop :=
  ∀ (s : State) (reg : Byte), 12 ≤ reg.toNat → exec (.pshReg reg) s = .fault .addressOutOfRange

/-- POP (R74, R78): the word two bytes above SP into the register, SP 2 higher unless it is the destination, `sfs` 2
lower (modulo 2^16, the spec's decision D3, log 4), memory and everything else as before; a word that is not whole in
memory, or an index of 12 or more, faults. -/
def Obligations.PopReadsAboveSp : Prop :=
  ∀ (s : State) (reg : Byte),
    (∀ r, Reg.ofIndex reg = some r → (s.reg .sp + 2).toNat + 1 < s.mem.len →
      ∃ t, exec (.pop reg) s = .next t ∧
        t.reg r = combine (s.mem.byteAt (s.reg .sp + 2).toNat) (s.mem.byteAt ((s.reg .sp + 2).toNat + 1)) ∧
        (r ≠ .sp → t.reg .sp = s.reg .sp + 2) ∧ (∀ q, q ≠ r → q ≠ .sp → t.reg q = s.reg q) ∧
        t.sfs = s.sfs - 2 ∧ t.mem = s.mem ∧ t.status = s.status) ∧
    (12 ≤ reg.toNat ∨ s.mem.len ≤ (s.reg .sp + 2).toNat + 1 → exec (.pop reg) s = .fault .addressOutOfRange)

/-- Last in, first out (R75): three pushes land at SP, SP - 2 and SP - 4, three pops give them back in reverse, and SP
and `sfs` are what they were (modulo 2^16, the spec's decision D3, log 4). -/
def Obligations.ThreePushesPopInReverse : Prop :=
  ∀ (s s1 s2 s3 : State) (v1 v2 v3 : Word), s.Inv →
    push v1 s = .ok s1 → push v2 s1 = .ok s2 → push v3 s2 = .ok s3 →
    s3.mem.wordAt (s.reg .sp).toNat = v1 ∧ s3.mem.wordAt (s.reg .sp - 2).toNat = v2 ∧
    s3.mem.wordAt (s.reg .sp - 4).toNat = v3 ∧
    ∃ u1 u2 u3, pop s3 = .ok (v3, u1) ∧ pop u1 = .ok (v2, u2) ∧ pop u2 = .ok (v1, u3) ∧
      u3.reg .sp = s.reg .sp ∧ u3.sfs = s.sfs

/-! ### Calls -/

/-- CAL_LIT (R79, R80, R82): where all ten words lie in memory it completes, with the frame of R79 in memory, FP and SP
below it, `sfs` 0 and IP at the target (sums modulo 2^16, the spec's decision D3, log 4). -/
def Obligations.CalLitPushesTheFrame : Prop :=
  ∀ (s : State) (addr : Word), s.mem.wf = true → callInMemory s →
    ∃ t, exec (.calLit addr) s = .next t ∧ callResult s addr t

/-- CAL_REG (R79, R80, R83): the same, to the value the register held before the frame was pushed (for SP and FP that
order is the spec's decision D6, log 7; sums modulo 2^16, its decision D3, log 4). -/
def Obligations.CalRegPushesTheFrame : Prop :=
  ∀ (s : State) (reg : Byte) (r : Reg), s.mem.wf = true → Reg.ofIndex reg = some r →
    callInMemory s → ∃ t, exec (.calReg reg) s = .next t ∧ callResult s (s.reg r) t

/-- A call faults when any of its ten pushes lies outside memory, and CAL_REG when its index is 12 or more (R82, R83).
At the bottom of memory the push that faults is the one whose address has wrapped modulo 2^16, the spec's decision D3
(log 4). -/
def Obligations.CallsFaultOutsideMemory : Prop :=
  (∀ (s : State) (addr : Word) (reg : Byte) (k : Nat), k < 10 → ¬ wordInMemory (pushSlot (s.reg .sp) k) s →
    exec (.calLit addr) s = .fault .addressOutOfRange ∧ exec (.calReg reg) s = .fault .addressOutOfRange) ∧
  ∀ (s : State) (reg : Byte), 12 ≤ reg.toNat → exec (.calReg reg) s = .fault .addressOutOfRange

/-- RET (R81, R84): where every pop lies in memory it completes. From FP upward it reads the marker, IP, R8 to R1 and
the count `n`; SP ends past the `n` discarded words, FP is the old FP plus the marker, `sfs` is the marker less 20 and
2n, and memory, ACC and the status stay (sums modulo 2^16, the spec's decision D3; `n` unsigned, D10: log 4, log 10). -/
def Obligations.RetRestoresFromTheFrame : Prop :=
  ∀ s : State, retInMemory s → ∃ t, exec .ret s = .next t ∧
      t.reg .ip = s.mem.wordAt (popSlot (s.reg .fp) 2).toNat ∧
      t.reg .r8 = s.mem.wordAt (popSlot (s.reg .fp) 3).toNat ∧
      t.reg .r7 = s.mem.wordAt (popSlot (s.reg .fp) 4).toNat ∧
      t.reg .r6 = s.mem.wordAt (popSlot (s.reg .fp) 5).toNat ∧
      t.reg .r5 = s.mem.wordAt (popSlot (s.reg .fp) 6).toNat ∧
      t.reg .r4 = s.mem.wordAt (popSlot (s.reg .fp) 7).toNat ∧
      t.reg .r3 = s.mem.wordAt (popSlot (s.reg .fp) 8).toNat ∧
      t.reg .r2 = s.mem.wordAt (popSlot (s.reg .fp) 9).toNat ∧
      t.reg .r1 = s.mem.wordAt (popSlot (s.reg .fp) 10).toNat ∧
      t.reg .sp = popSlot (s.reg .fp) (11 + (retCount s).toNat) ∧
      t.reg .fp = s.reg .fp + retMarker s ∧
      t.sfs = retMarker s - 20 - BitVec.ofNat 16 (2 * (retCount s).toNat) ∧
      t.reg .acc = s.reg .acc ∧ t.mem = s.mem ∧ t.status = s.status

/-- RET faults when any of its pops lies outside memory (R84, R87); from the initial FP it always does (R84). The `n`
of its 11 + n pops is unsigned, the spec's decision D10 (log 10), and their addresses are modulo 2^16, its decision D3
(log 4). -/
def Obligations.RetFaultsOutsideMemory : Prop :=
  (∀ (s : State) (k : Nat), 1 ≤ k → k ≤ 11 + (retCount s).toNat → ¬ wordInMemory (popSlot (s.reg .fp) k) s →
    exec .ret s = .fault .addressOutOfRange) ∧
  ∀ s : State, Config.memLenOk s.mem.len → (s.reg .fp).toNat = s.mem.len - 2 → exec .ret s = .fault .addressOutOfRange

/-- The calling convention (R85): after a CALL, in any state `c` whose FP and ten frame words are as the CALL left them,
where the count word and the `n` words above it lie in memory, RET restores R1..R8 and IP, and leaves SP past the count
and the arguments, FP at SP0 + S0, `sfs` at S0 - 2n (the drift included), and ACC and memory as the callee left them
(sums modulo 2^16, the spec's decision D3; `n` unsigned, D10: log 4, log 10). -/
def Obligations.RetUndoesTheCall : Prop :=
  ∀ (s t c : State) (i : Instr) (n : Word), s.Inv →
    ((∃ addr, i = .calLit addr) ∨ ∃ reg, i = .calReg reg) → exec i s = .next t →
    c.mem.len = s.mem.len → c.reg .fp = t.reg .fp →
    (∀ k, k < 10 → c.mem.wordAt (pushSlot (s.reg .sp) k).toNat = t.mem.wordAt (pushSlot (s.reg .sp) k).toNat) →
    c.mem.wordAt (popSlot (s.reg .sp) 1).toNat = n →
    (∀ k, 1 ≤ k → k ≤ 1 + n.toNat → wordInMemory (popSlot (s.reg .sp) k) c) →
    (t.reg .sp = s.reg .sp - 20 ∧ t.reg .fp = s.reg .sp - 20 ∧ t.sfs = 0) ∧
    ∃ u, exec .ret c = .next u ∧ (∀ r, r ∈ savedRegs → u.reg r = s.reg r) ∧ u.reg .ip = s.reg .ip ∧
      u.reg .sp = s.reg .sp + 2 + 2 * n ∧ u.reg .fp = s.reg .sp + s.sfs ∧ u.sfs = s.sfs - 2 * n ∧
      u.reg .acc = c.reg .acc ∧ u.mem = c.mem

/-- A CALL, by CAL_LIT or CAL_REG, made with nothing pushed, SP at its initial `MEM_LEN - 2`, has its RET read the count
at MEM_LEN and fault, whatever the callee did but to move FP (R85). Where memory is just large enough for the frame, FP
has wrapped modulo 2^16, the spec's decision D3 (log 4). -/
def Obligations.RetWithoutCountFaults : Prop :=
  ∀ (s t c : State) (i : Instr), Config.memLenOk s.mem.len → (s.reg .sp).toNat = s.mem.len - 2 →
    ((∃ addr, i = .calLit addr) ∨ ∃ reg, i = .calReg reg) → exec i s = .next t →
    c.mem.len = s.mem.len → c.reg .fp = t.reg .fp → exec .ret c = .fault .addressOutOfRange

/-! ### Frames over all instructions -/

/-- Every instruction leaves every register unchanged but those R29 lists for it. -/
def Obligations.InstructionsWriteOnlyTheirRegisters : Prop :=
  ∀ (i : Instr) (s t : State) (r : Reg), exec i s = .next t → r ∉ writtenRegs i → t.reg r = s.reg r

/-- Every instruction leaves every byte of memory unchanged but the two bytes of each word it stores, at the addresses
its meaning stores to: the address operand of MOV_REG_MEM, SP for a push, the ten push addresses of a call; an
instruction that stores nothing leaves every byte (R31, R39). The premise that memory is in canonical form is an
invariant (StepKeepsInvariant). -/
def Obligations.InstructionsStoreOnlyTheirWords : Prop :=
  ∀ (i : Instr) (s t : State) (x : Nat), s.mem.wf = true → exec i s = .next t →
    (∀ a, a ∈ storedWords i s → x ≠ a.toNat ∧ x ≠ a.toNat + 1) → t.mem.byteAt x = s.mem.byteAt x

/-- Only instructions that push or pop change `sfs`, and only HALT changes the status (R29). -/
def Obligations.OnlyStackWritesSfsOnlyHaltWritesStatus : Prop :=
  ∀ (i : Instr) (s t : State), exec i s = .next t →
    (writesSfs i = false → t.sfs = s.sfs) ∧ (i ≠ .halt → t.status = s.status)

/-- Under the premise NO_WRAP of the spec's decision D3 (log 4), SP, FP and the signed `sfs` of pushes, pops, calls and
returns, and the marker that a call pushes, are the exact integers, so these results do not depend on that decision. The
count of a return is unsigned by the spec's decision D10 (log 10). -/
def Obligations.NoWrapMakesTheStackExact : Prop :=
  (∀ (i : Instr) (s t : State), ((∃ v, i = .pshLit v) ∨ ∃ reg, i = .pshReg reg) → noWrap i s → exec i s = .next t →
    (t.reg .sp).toNat + 2 = (s.reg .sp).toNat ∧ t.sfs.toInt = s.sfs.toInt + 2) ∧
  (∀ (reg : Byte) (s t : State), noWrap (.pop reg) s → exec (.pop reg) s = .next t →
    (Reg.ofIndex reg ≠ some .sp → (t.reg .sp).toNat = (s.reg .sp).toNat + 2) ∧ t.sfs.toInt = s.sfs.toInt - 2) ∧
  (∀ (i : Instr) (s t : State), s.mem.wf = true → ((∃ addr, i = .calLit addr) ∨ ∃ reg, i = .calReg reg) →
    noWrap i s → exec i s = .next t →
    (t.reg .sp).toNat + 20 = (s.reg .sp).toNat ∧ (t.reg .fp).toNat + 20 = (s.reg .sp).toNat ∧ t.sfs.toInt = 0 ∧
      (retMarker t).toInt = s.sfs.toInt + 20) ∧
  ∀ s t : State, noWrap .ret s → exec .ret s = .next t →
    (t.reg .sp).toNat = (s.reg .fp).toNat + 22 + 2 * (retCount s).toNat ∧
    ((t.reg .fp).toNat : Int) = (s.reg .fp).toNat + (retMarker s).toInt ∧
    t.sfs.toInt = (retMarker s).toInt - 20 - 2 * (retCount s).toNat

/-! ### The host's transactions -/

/-- CONSTRUCT (R28, R100): for an admitted length and any INIT_MEM of that length, IP, ACC and R1..R8 are 0, SP and FP
are MEM_LEN - 2, `sfs` is 0, the status is Running and memory holds INIT_MEM; any other length is refused (the admitted
range is the spec's decision D1, the open INIT_MEM its D2: log 3, log 2). -/
def Obligations.ConstructBuildsTheInitialState : Prop :=
  ∀ (len : Nat) (init : List Byte),
    (Config.memLenOk len → init.length = len → ∃ s, construct len init = some s ∧ s.mem.len = len ∧
      (∀ k (hk : k < init.length), s.mem.byteAt k = init[k]) ∧ s.mem.wf = true ∧
      (∀ r, r ≠ .sp → r ≠ .fp → s.reg r = 0) ∧ (s.reg .sp).toNat = len - 2 ∧ (s.reg .fp).toNat = len - 2 ∧
      s.sfs = 0 ∧ s.status = .running) ∧
    (¬ Config.memLenOk len → construct len init = none)

/-- `State.reset` is what CONSTRUCT builds from the length and the contents that the model chooses: the greatest length
and all bytes zero (log 1, log 2). -/
def Obligations.ResetIsConstructed : Prop :=
  construct resetMemLen (List.replicate resetMemLen 0) = some State.reset

/-- LOAD (R103): the bytes stand from the offset up, nothing else changes and the host hears so; where they would pass the
end of memory, the host hears the error AddressOutOfRange, no byte is written, and a Running machine becomes
Faulted(AddressOutOfRange) (the effect of a failure is the spec's decision D11, log 11). The spec defines LOAD only before
the first STEP; that the model's LOAD is total and leaves a terminal status, Halted or Faulted, as it is (R64, R95) is
the model's choice (log 11). -/
def Obligations.LoadInstallsOrFaults : Prop :=
  ∀ (s : State) (offset : Word) (bytes : List Byte),
    (s.mem.wf = true → offset.toNat + bytes.length ≤ s.mem.len →
      ∃ t, load offset bytes s = (t, .installed) ∧
        (∀ k (hk : k < bytes.length), t.mem.byteAt (offset.toNat + k) = bytes[k]) ∧
        (∀ x, x < offset.toNat ∨ offset.toNat + bytes.length ≤ x → t.mem.byteAt x = s.mem.byteAt x) ∧
        t.mem.len = s.mem.len ∧ (∀ r, t.reg r = s.reg r) ∧ t.sfs = s.sfs ∧ t.status = s.status) ∧
    (s.mem.len < offset.toNat + bytes.length →
      (s.status = .running →
        load offset bytes s = (s.setStatus (.faulted .addressOutOfRange), .error .addressOutOfRange)) ∧
      (s.status ≠ .running → load offset bytes s = (s, .error .addressOutOfRange)))

/-- The STEP transaction (R60, R91, R95): in Running it is one step, and returns Halted exactly when the new status is;
a fault leaves status Faulted(k) in a memory of the same length and returns Faulted(k); in Halted and in Faulted it
changes nothing and returns the same again. Nothing is said of a faulted state's contents (D7, D8, log 8). -/
def Obligations.StepTransactionFollowsTheStatus : Prop :=
  ∀ s : State,
    (∀ t, s.status = .running → step s = .next t → (stepTransaction s).1 = t ∧
      ((stepTransaction s).2 = .halted ↔ t.status = .halted) ∧
      ((stepTransaction s).2 = .running ↔ t.status = .running)) ∧
    (∀ k, s.status = .running → step s = .fault k → (stepTransaction s).1.status = .faulted k ∧
      (stepTransaction s).1.mem.len = s.mem.len ∧ (stepTransaction s).2 = .faulted k ∧
      stepTransaction (stepTransaction s).1 = ((stepTransaction s).1, .faulted k)) ∧
    (s.status = .halted → stepTransaction s = (s, .halted)) ∧
    ∀ k, s.status = .faulted k → stepTransaction s = (s, .faulted k)

/-- READ_REG and READ_MEM_BYTE (R96): the register or the byte, or AddressOutOfRange to the host; they return no state,
so they change none (their errors are the spec's decision D12, log 12). -/
def Obligations.DebugAccessorsRead : Prop :=
  ∀ (s : State) (id : Byte) (addr : Word),
    (∀ r, Reg.ofIndex id = some r → readRegAccessor id s = .ok (s.reg r)) ∧
    (12 ≤ id.toNat → readRegAccessor id s = .error .addressOutOfRange) ∧
    (addr.toNat < s.mem.len → readMemByteAccessor addr s = .ok (s.mem.byteAt addr.toNat)) ∧
    (s.mem.len ≤ addr.toNat → readMemByteAccessor addr s = .error .addressOutOfRange)

/-- Every run ends, faults or diverges, no two of them, and a run that ends has one final state (R65; the end of a run
is the spec's decision D17, log 14). -/
def Obligations.EveryRunHasOneOutcome : Prop :=
  ∀ s : State,
    ((∃ n t, runEnds s n t) ∨ (∃ n k, runFaults s n k) ∨ runDiverges s) ∧
    (∀ n t m k, runEnds s n t → ¬ runFaults s m k) ∧
    (∀ n t, runEnds s n t → ¬ runDiverges s) ∧
    (∀ n k, runFaults s n k → ¬ runDiverges s) ∧
    ∀ n t m t', runEnds s n t → runEnds s m t' → t = t'
end

