-- ==== Sys2Proof/Laws/Bytes.lean ====
section
/-! SUPPORT. `combine` and `split` undo each other (spec/00_scope.md R7). -/

namespace Sys2Proof

@[simp] theorem combine_split (w : Word) : combine (hiByte w) (loByte w) = w := by
  apply BitVec.eq_of_getLsbD_eq
  intro i hi
  simp only [combine, hiByte, loByte, BitVec.getLsbD_append, BitVec.getLsbD_extractLsb']
  by_cases h : i < 8
  · simp [h]
  · have h2 : i - 8 < 8 := by omega
    have h3 : 8 + (i - 8) = i := by omega
    simp [h, h2, h3]

@[simp] theorem hiByte_combine (hi lo : Byte) : hiByte (combine hi lo) = hi := by
  apply BitVec.eq_of_getLsbD_eq
  intro i h
  have h2 : ¬ 8 + i < 8 := by omega
  simp only [combine, hiByte, BitVec.getLsbD_append, BitVec.getLsbD_extractLsb']
  simp [h]

@[simp] theorem loByte_combine (hi lo : Byte) : loByte (combine hi lo) = lo := by
  apply BitVec.eq_of_getLsbD_eq
  intro i h
  simp only [combine, loByte, BitVec.getLsbD_append, BitVec.getLsbD_extractLsb']
  simp [h]

/-- A word is fixed by its two bytes. -/
theorem word_ext {v w : Word} (h1 : hiByte v = hiByte w) (h2 : loByte v = loByte w) : v = w := by
  rw [← combine_split v, ← combine_split w, h1, h2]

@[simp] theorem bigEndianBytes_length (n w : Nat) : (bigEndianBytes n w).length = n := by
  induction n with
  | zero => rfl
  | succ n ih => simp [bigEndianBytes, ih]

end Sys2Proof
end

