-- ==== Sys2Proof/Laws/Decode.lean ====
section
/-! SUPPORT. The small lemmas of the opcode map (spec/30_encoding.md R52): which byte spells which row, and the length
that the opcode fixes. -/

namespace Sys2Proof

@[simp] theorem Opcode.mem_all (o : Opcode) : o ∈ Opcode.all := by cases o <;> decide

theorem Opcode.byte_injective : ∀ o p : Opcode, o.byte = p.byte → o = p := by
  intro o p h
  cases o <;> cases p <;> first | rfl | exact absurd h (by decide)

@[simp] theorem Opcode.ofByte_byte (o : Opcode) : Opcode.ofByte o.byte = some o := by cases o <;> decide

theorem Opcode.ofByte_eq_some {b : Byte} {o : Opcode} : Opcode.ofByte b = some o ↔ o.byte = b := by
  constructor
  · intro h
    simpa using List.find?_some h
  · rintro rfl
    exact Opcode.ofByte_byte o

theorem Opcode.ofByte_eq_none {b : Byte} : Opcode.ofByte b = none ↔ ∀ o : Opcode, o.byte ≠ b := by
  constructor
  · intro h o ho
    rw [← ho, Opcode.ofByte_byte] at h
    cases h
  · intro h
    cases hb : Opcode.ofByte b with
    | none => rfl
    | some o => exact absurd (Opcode.ofByte_eq_some.mp hb) (h o)

theorem Opcode.length_pos (o : Opcode) : 1 ≤ o.length := by unfold Opcode.length; omega

theorem Opcode.length_le (o : Opcode) : o.length ≤ maxInstrLength := by cases o <;> decide

theorem encodeOperands_length (i : Instr) : (encodeOperands i).length = fieldsSize i.opcode.format.fields := by
  cases i <;> rfl

/-- An encoding has the length its opcode fixes. -/
@[simp] theorem encode_length (i : Instr) : (encode i).length = i.length := by
  simp [encode, encodeOperands_length, Instr.length, Opcode.length, Nat.add_comm]

/-- Enough operand bytes decode to some instruction of the row, and exactly the row's bytes are taken. -/
theorem decodeOperands_total (o : Opcode) (bytes rest : List Byte)
    (h : bytes.length = fieldsSize o.format.fields) :
    ∃ i : Instr, i.opcode = o ∧ decodeOperands o (bytes ++ rest) = .ok (i, rest) := by
  cases o
  case ret => exact ⟨.ret, rfl, by rw [List.eq_nil_of_length_eq_zero h]; rfl⟩
  case halt => exact ⟨.halt, rfl, by rw [List.eq_nil_of_length_eq_zero h]; rfl⟩
  case pshReg => match bytes, h with | [r], _ => exact ⟨.pshReg r, rfl, rfl⟩
  case pop => match bytes, h with | [r], _ => exact ⟨.pop r, rfl, rfl⟩
  case calReg => match bytes, h with | [r], _ => exact ⟨.calReg r, rfl, rfl⟩
  case movRegReg => match bytes, h with | [a, b], _ => exact ⟨.movRegReg a b, rfl, rfl⟩
  case addRegReg => match bytes, h with | [a, b], _ => exact ⟨.addRegReg a b, rfl, rfl⟩
  case pshLit => match bytes, h with | [a, b], _ => exact ⟨.pshLit (combine a b), rfl, rfl⟩
  case calLit => match bytes, h with | [a, b], _ => exact ⟨.calLit (combine a b), rfl, rfl⟩
  case movLitReg => match bytes, h with | [a, b, c], _ => exact ⟨.movLitReg (combine a b) c, rfl, rfl⟩
  case movMemReg => match bytes, h with | [a, b, c], _ => exact ⟨.movMemReg (combine a b) c, rfl, rfl⟩
  case movRegMem => match bytes, h with | [a, b, c], _ => exact ⟨.movRegMem a (combine b c), rfl, rfl⟩
  case jmpNotEq =>
    match bytes, h with | [a, b, c, d], _ => exact ⟨.jmpNotEq (combine a b) (combine c d), rfl, rfl⟩

/-- A successful decoding has the row's opcode in front. -/
theorem decode_ok_opcode {op : Byte} {rest tail : List Byte} {i : Instr} (h : decode (op :: rest) = .ok (i, tail)) :
    op = i.opcode.byte ∧ decodeOperands i.opcode rest = .ok (i, tail) := by
  simp only [decode] at h
  split at h
  · cases h
  · rename_i o ho
    have hop := Opcode.ofByte_eq_some.mp ho
    have : i.opcode = o := by
      unfold decodeOperands at h
      split at h <;> (try split at h) <;> cases h <;> rfl
    subst this
    exact ⟨hop.symm, h⟩

end Sys2Proof
end

