-- ==== Sys2Proof/Laws/Memory.lean ====
section
/-! SUPPORT. The laws of the memory bank (spec/20_memory.md): a read after a write, the canonical form and that every
write keeps it, and that equal bytes are equal banks. -/

namespace Sys2Proof.Machine

/-! ### Cells -/

theorem cellsWf_cons {len lo k : Nat} {b : Byte} {rest : List Host.Cell} :
    cellsWf len lo ((k, b) :: rest) = true ↔ lo ≤ k ∧ k < len ∧ b ≠ memFill ∧ cellsWf len (k + 1) rest = true := by
  simp [cellsWf, and_assoc]

theorem cellsWf_mono {len lo lo' : Nat} {cs : List Host.Cell} (h : cellsWf len lo cs = true) (hl : lo' ≤ lo) :
    cellsWf len lo' cs = true := by
  cases cs with
  | nil => rfl
  | cons c rest =>
    obtain ⟨k, b⟩ := c
    rw [cellsWf_cons] at h ⊢
    exact ⟨by omega, h.2⟩

/-- Below its first address, a canonical list reads as `memFill`. -/
theorem cellAt_below {len lo a : Nat} {cs : List Host.Cell} (h : cellsWf len lo cs = true) (ha : a < lo) :
    cellAt cs a = memFill := by
  induction cs generalizing lo with
  | nil => rfl
  | cons c rest ih =>
    obtain ⟨k, b⟩ := c
    rw [cellsWf_cons] at h
    have hk : k ≠ a := by omega
    simp only [cellAt, if_neg hk]
    exact ih h.2.2.2 (by omega)

/-- Above memory, a canonical list reads as `memFill`. -/
theorem cellAt_above {len lo a : Nat} {cs : List Host.Cell} (h : cellsWf len lo cs = true) (ha : len ≤ a) :
    cellAt cs a = memFill := by
  induction cs generalizing lo with
  | nil => rfl
  | cons c rest ih =>
    obtain ⟨k, b⟩ := c
    rw [cellsWf_cons] at h
    have hk : k ≠ a := by omega
    simp only [cellAt, if_neg hk]
    exact ih h.2.2.2

theorem putCell_wf {len lo a : Nat} {cs : List Host.Cell} (b : Byte) (h : cellsWf len lo cs = true) (hlo : lo ≤ a)
    (ha : a < len) : cellsWf len lo (putCell cs a b) = true := by
  induction cs generalizing lo with
  | nil =>
    unfold putCell
    split
    · rfl
    · exact cellsWf_cons.mpr ⟨hlo, ha, ‹_›, rfl⟩
  | cons c rest ih =>
    obtain ⟨k, d⟩ := c
    have h' := cellsWf_cons.mp h
    unfold putCell
    split
    · exact cellsWf_cons.mpr ⟨h'.1, h'.2.1, h'.2.2.1, ih h'.2.2.2 (by omega)⟩
    · split
      · split
        · exact cellsWf_mono h'.2.2.2 (by omega)
        · exact cellsWf_cons.mpr ⟨hlo, ha, ‹_›, by rw [← ‹k = a›]; exact h'.2.2.2⟩
      · split
        · exact h
        · exact cellsWf_cons.mpr ⟨hlo, ha, ‹_›, cellsWf_cons.mpr ⟨by omega, h'.2⟩⟩

/-- A read after a write: the byte written at its address, and the old byte everywhere else. -/
theorem cellAt_putCell {len lo : Nat} {cs : List Host.Cell} (h : cellsWf len lo cs = true) (a : Nat) (b : Byte)
    (x : Nat) : cellAt (putCell cs a b) x = if x = a then b else cellAt cs x := by
  induction cs generalizing lo with
  | nil =>
    unfold putCell
    by_cases hb : b = memFill
    · simp [hb, cellAt]
    · by_cases hx : x = a
      · simp [hb, cellAt, hx]
      · simp [hb, cellAt, hx, Ne.symm hx]
  | cons c rest ih =>
    obtain ⟨k, d⟩ := c
    have h' := cellsWf_cons.mp h
    unfold putCell
    split
    · simp only [cellAt, ih h'.2.2.2]
      by_cases hkx : k = x
      · have : x ≠ a := by omega
        simp [hkx, this]
      · simp [hkx]
    · split
      · have hka : k = a := ‹_›
        have hrest : cellAt rest a = memFill := cellAt_below h'.2.2.2 (by omega)
        by_cases hx : x = a
        · subst hx
          split
          · simp_all
          · simp [cellAt]
        · have hxk : ¬ a = x := fun e => hx e.symm
          split <;> simp [cellAt, hxk, hka]
      · have hfirst : cellAt ((k, d) :: rest) a = memFill :=
          cellAt_below (cellsWf_cons.mpr ⟨Nat.le_refl k, h'.2⟩) (by omega)
        by_cases hx : x = a
        · subst hx
          split
          · simp_all
          · simp [cellAt]
        · have hxk : ¬ a = x := fun e => hx e.symm
          split <;> simp [cellAt, hxk]

/-- Two canonical lists with the same bytes are the same list. -/
theorem cells_ext {len lo : Nat} {cs ds : List Host.Cell} (hc : cellsWf len lo cs = true) (hd : cellsWf len lo ds = true)
    (h : ∀ a, cellAt cs a = cellAt ds a) : cs = ds := by
  induction cs generalizing lo ds with
  | nil =>
    cases ds with
    | nil => rfl
    | cons d rest =>
      obtain ⟨k, b⟩ := d
      have hk := h k
      simp only [cellAt, if_true] at hk
      exact absurd hk.symm (cellsWf_cons.mp hd).2.2.1
  | cons c rest ih =>
    obtain ⟨k, b⟩ := c
    have hc' := cellsWf_cons.mp hc
    cases ds with
    | nil =>
      have hk := h k
      simp only [cellAt, if_true] at hk
      exact absurd hk hc'.2.2.1
    | cons d rest' =>
      obtain ⟨k', b'⟩ := d
      have hd' := cellsWf_cons.mp hd
      have hkk : k = k' := by
        rcases Nat.lt_trichotomy k k' with hlt | heq | hgt
        · have hk := h k
          rw [cellAt_below (lo := k') (cellsWf_cons.mpr ⟨Nat.le_refl _, hd'.2⟩) hlt] at hk
          simp only [cellAt, if_true] at hk
          exact absurd hk hc'.2.2.1
        · exact heq
        · have hk := h k'
          rw [cellAt_below (lo := k) (cellsWf_cons.mpr ⟨Nat.le_refl _, hc'.2⟩) hgt] at hk
          simp only [cellAt, if_true] at hk
          exact absurd hk.symm hd'.2.2.1
      subst hkk
      have hbb : b = b' := by simpa [cellAt] using h k
      subst hbb
      have hrest : rest = rest' := by
        apply ih hc'.2.2.2 hd'.2.2.2
        intro a
        by_cases ha : a = k
        · subst ha
          rw [cellAt_below hc'.2.2.2 (by omega), cellAt_below hd'.2.2.2 (by omega)]
        · have := h a
          simpa [cellAt, Ne.symm ha] using this
      rw [hrest]

/-! ### The bank -/

@[simp] theorem Memory.len_putByte (m : Memory) (a : Nat) (b : Byte) : (m.putByte a b).len = m.len := rfl
@[simp] theorem Memory.len_putWord (m : Memory) (a : Nat) (w : Word) : (m.putWord a w).len = m.len := rfl

@[simp] theorem Memory.len_putBytes (m : Memory) (a : Nat) (bs : List Byte) : (m.putBytes a bs).len = m.len := by
  induction bs generalizing m a with
  | nil => rfl
  | cons b rest ih => simp [Memory.putBytes, ih]

@[simp] theorem Memory.len_install (m : Memory) (a : Nat) (bs : List Byte) : (m.install a bs).len = m.len := by
  simp [Memory.install]

@[simp] theorem Memory.wf_empty (len : Nat) : Memory.wf ⟨len, []⟩ = true := rfl
@[simp] theorem Memory.byteAt_empty (len a : Nat) : Memory.byteAt ⟨len, []⟩ a = memFill := rfl

theorem Memory.byteAt_putByte {m : Memory} (h : m.wf = true) (a : Nat) (b : Byte) (x : Nat) :
    (m.putByte a b).byteAt x = if x = a then b else m.byteAt x := cellAt_putCell h a b x

theorem Memory.wf_putByte {m : Memory} (h : m.wf = true) {a : Nat} (ha : a < m.len) (b : Byte) :
    (m.putByte a b).wf = true := putCell_wf b h (Nat.zero_le a) ha

/-- Outside memory a canonical bank reads as `memFill`. -/
theorem Memory.byteAt_above {m : Memory} (h : m.wf = true) {a : Nat} (ha : m.len ≤ a) : m.byteAt a = memFill :=
  cellAt_above h ha

theorem Memory.wf_putWord {m : Memory} (h : m.wf = true) {a : Nat} (ha : a + 1 < m.len) (w : Word) :
    (m.putWord a w).wf = true :=
  Memory.wf_putByte (Memory.wf_putByte h (by omega) _) (by simpa using ha) _

/-- The bytes after a word write (R33, R36). -/
theorem Memory.byteAt_putWord {m : Memory} (h : m.wf = true) {a : Nat} (ha : a + 1 < m.len) (w : Word) (x : Nat) :
    (m.putWord a w).byteAt x = if x = a then hiByte w else if x = a + 1 then loByte w else m.byteAt x := by
  unfold Memory.putWord
  rw [Memory.byteAt_putByte (Memory.wf_putByte h (by omega) _), Memory.byteAt_putByte h]
  by_cases h1 : x = a
  · have : x ≠ a + 1 := by omega
    simp [h1]
  · simp [h1]

/-- A word read after a word write at the same address (R36). -/
theorem Memory.wordAt_putWord {m : Memory} (h : m.wf = true) {a : Nat} (ha : a + 1 < m.len) (w : Word) :
    (m.putWord a w).wordAt a = w := by
  simp [Memory.wordAt, Memory.byteAt_putWord h ha]

/-- A word read after a write of other bytes. -/
theorem Memory.wordAt_putWord_of_disjoint {m : Memory} (h : m.wf = true) {a x : Nat} (ha : a + 1 < m.len) (w : Word)
    (hx : x + 1 < a ∨ a + 1 < x) : (m.putWord a w).wordAt x = m.wordAt x := by
  have h1 : x ≠ a := by omega
  have h2 : x ≠ a + 1 := by omega
  have h3 : x + 1 ≠ a := by omega
  have h4 : x ≠ a := by omega
  simp [Memory.wordAt, Memory.byteAt_putWord h ha, h1, h2, h3]

theorem Memory.wf_putBytes {m : Memory} (h : m.wf = true) {a : Nat} {bs : List Byte} (ha : a + bs.length ≤ m.len) :
    (m.putBytes a bs).wf = true := by
  induction bs generalizing m a with
  | nil => exact h
  | cons b rest ih =>
    have hl : a + (rest.length + 1) ≤ m.len := ha
    exact ih (Memory.wf_putByte h (by omega) b) (by simp; omega)

/-- The bytes after a run of byte writes (R103). -/
theorem Memory.byteAt_putBytes {m : Memory} (h : m.wf = true) {a : Nat} {bs : List Byte} (ha : a + bs.length ≤ m.len)
    (x : Nat) :
    (m.putBytes a bs).byteAt x = if a ≤ x then (bs[x - a]?).getD (m.byteAt x) else m.byteAt x := by
  induction bs generalizing m a with
  | nil => simp [Memory.putBytes]
  | cons b rest ih =>
    have hl : a + (rest.length + 1) ≤ m.len := ha
    unfold Memory.putBytes
    rw [ih (Memory.wf_putByte h (by omega) b) (by simp; omega), Memory.byteAt_putByte h]
    by_cases hx : a ≤ x
    · by_cases hxa : x = a
      · subst hxa; simp
      · obtain ⟨d, rfl⟩ : ∃ d, x = a + 1 + d := ⟨x - (a + 1), by omega⟩
        have h1 : a + 1 + d - a = d + 1 := by omega
        have h2 : a + 1 + d - (a + 1) = d := by omega
        have h3 : a + 1 ≤ a + 1 + d := by omega
        have h4 : a ≤ a + 1 + d := by omega
        simp only [h1, h2, h3, h4, hxa, if_true, if_false, List.getElem?_cons_succ]
    · have h1 : ¬ a + 1 ≤ x := by omega
      have h2 : x ≠ a := by omega
      simp [hx, h1, h2]

theorem Memory.wf_install {m : Memory} (h : m.wf = true) {a : Nat} (ha : a ≤ m.len) (bs : List Byte) :
    (m.install a bs).wf = true := by
  apply Memory.wf_putBytes h
  simp only [List.length_take]
  omega

theorem Memory.wf_ofBytes {len : Nat} {bs : List Byte} (h : bs.length ≤ len) : (Memory.ofBytes len bs).wf = true :=
  Memory.wf_putBytes (Memory.wf_empty len) (by simpa using h)

@[simp] theorem Memory.len_ofBytes (len : Nat) (bs : List Byte) : (Memory.ofBytes len bs).len = len := by
  simp [Memory.ofBytes]

/-- A bank built from bytes holds them (INIT_MEM, R100). -/
theorem Memory.byteAt_ofBytes {len : Nat} {bs : List Byte} (h : bs.length ≤ len) (x : Nat) :
    (Memory.ofBytes len bs).byteAt x = (bs[x]?).getD memFill := by
  unfold Memory.ofBytes
  rw [Memory.byteAt_putBytes (Memory.wf_empty len) (by simpa using h)]
  simp

@[simp] theorem Memory.length_bytesFrom (m : Memory) (a n : Nat) : (m.bytesFrom a n).length = n := by
  induction n generalizing a with
  | zero => rfl
  | succ n ih => simp [Memory.bytesFrom, ih]

theorem Memory.bytesFrom_append (m : Memory) (a n k : Nat) :
    m.bytesFrom a (n + k) = m.bytesFrom a n ++ m.bytesFrom (a + n) k := by
  induction n generalizing a with
  | zero => simp [Memory.bytesFrom]
  | succ n ih =>
    have h1 : n + 1 + k = (n + k) + 1 := by omega
    have h2 : a + (n + 1) = a + 1 + n := by omega
    rw [h1, h2]
    simp [Memory.bytesFrom, ih]

end Sys2Proof.Machine
end

