-- ==== Sys2Proof/Laws/Registers.lean ====
section
/-! SUPPORT. The small lemmas of the register file (spec/10_state.md R13, R16, R17). -/

namespace Sys2Proof.Machine

@[simp] theorem RegFile.get_set (f : RegFile) (r q : Reg) (v : Word) :
    (f.set r v).get q = if q = r then v else f.get q := by
  cases r <;> cases q <;> rfl

theorem RegFile.ext_get {f g : RegFile} (h : ∀ r, f.get r = g.get r) : f = g := by
  obtain ⟨_, _, _, _, _, _, _, _, _, _, _, _⟩ := f
  obtain ⟨_, _, _, _, _, _, _, _, _, _, _, _⟩ := g
  have := h .ip; have := h .acc; have := h .r1; have := h .r2; have := h .r3; have := h .r4
  have := h .r5; have := h .r6; have := h .r7; have := h .r8; have := h .sp; have := h .fp
  simp_all [RegFile.get]

@[simp] theorem Reg.mem_all (r : Reg) : r ∈ Reg.all := by cases r <;> decide

theorem Reg.index_injective : ∀ r q : Reg, r.index = q.index → r = q := by
  intro r q h
  cases r <;> cases q <;> first | rfl | exact absurd h (by decide)

@[simp] theorem Reg.ofIndex_index (r : Reg) : Reg.ofIndex r.index = some r := by cases r <;> decide

theorem Reg.ofIndex_eq_some {i : Byte} {r : Reg} : Reg.ofIndex i = some r ↔ r.index = i := by
  constructor
  · intro h
    simpa using List.find?_some h
  · rintro rfl
    exact Reg.ofIndex_index r

/-- An index names a register exactly when it is below 12 (R16). -/
theorem Reg.ofIndex_eq_none {i : Byte} : Reg.ofIndex i = none ↔ 12 ≤ i.toNat := by
  constructor
  · intro h
    by_contra hlt
    have hlt : i.toNat < 12 := by omega
    have hi : i = BitVec.ofNat 8 i.toNat := by simp
    rw [hi] at h
    revert h
    generalize i.toNat = n at hlt
    interval_cases n <;> decide
  · intro h
    cases hi : Reg.ofIndex i with
    | none => rfl
    | some r =>
      rw [← Reg.ofIndex_eq_some.mp hi] at h
      revert h
      cases r <;> decide

theorem Reg.exists_of_lt {i : Byte} (h : i.toNat < 12) : ∃ r, Reg.ofIndex i = some r := by
  cases hi : Reg.ofIndex i with
  | some r => exact ⟨r, rfl⟩
  | none => rw [Reg.ofIndex_eq_none] at hi; omega

theorem Reg.index_lt (r : Reg) : r.index.toNat < 12 := by cases r <;> decide

end Sys2Proof.Machine
end

