-- ==== Sys2Proof/Laws/State.lean ====
section
/-! SUPPORT. One lemma per field per update of State, so that no proof unfolds a record update. -/

namespace Sys2Proof.Machine

@[simp] theorem State.reg_setReg (s : State) (r q : Reg) (v : Word) :
    (s.setReg r v).reg q = if q = r then v else s.reg q := RegFile.get_set s.regs r q v
@[simp] theorem State.mem_setReg (s : State) (r : Reg) (v : Word) : (s.setReg r v).mem = s.mem := rfl
@[simp] theorem State.sfs_setReg (s : State) (r : Reg) (v : Word) : (s.setReg r v).sfs = s.sfs := rfl
@[simp] theorem State.status_setReg (s : State) (r : Reg) (v : Word) : (s.setReg r v).status = s.status := rfl

@[simp] theorem State.reg_setSfs (s : State) (v : Word) (q : Reg) : (s.setSfs v).reg q = s.reg q := rfl
@[simp] theorem State.mem_setSfs (s : State) (v : Word) : (s.setSfs v).mem = s.mem := rfl
@[simp] theorem State.sfs_setSfs (s : State) (v : Word) : (s.setSfs v).sfs = v := rfl
@[simp] theorem State.status_setSfs (s : State) (v : Word) : (s.setSfs v).status = s.status := rfl

@[simp] theorem State.reg_setMem (s : State) (m : Memory) (q : Reg) : (s.setMem m).reg q = s.reg q := rfl
@[simp] theorem State.mem_setMem (s : State) (m : Memory) : (s.setMem m).mem = m := rfl
@[simp] theorem State.sfs_setMem (s : State) (m : Memory) : (s.setMem m).sfs = s.sfs := rfl
@[simp] theorem State.status_setMem (s : State) (m : Memory) : (s.setMem m).status = s.status := rfl

@[simp] theorem State.reg_setStatus (s : State) (v : Status) (q : Reg) : (s.setStatus v).reg q = s.reg q := rfl
@[simp] theorem State.mem_setStatus (s : State) (v : Status) : (s.setStatus v).mem = s.mem := rfl
@[simp] theorem State.sfs_setStatus (s : State) (v : Status) : (s.setStatus v).sfs = s.sfs := rfl
@[simp] theorem State.status_setStatus (s : State) (v : Status) : (s.setStatus v).status = v := rfl

/-- Two states are equal when memory, every register, `sfs` and the status are. -/
theorem State.ext_reg {s t : State} (hm : s.mem = t.mem) (hr : ∀ r, s.reg r = t.reg r) (hf : s.sfs = t.sfs)
    (hs : s.status = t.status) : s = t := by
  obtain ⟨m, f, x, u⟩ := s
  obtain ⟨m', f', x', u'⟩ := t
  have hreg : f = f' := RegFile.ext_get hr
  simp_all

@[simp] theorem State.reset_mem : State.reset.mem = ⟨resetMemLen, []⟩ := rfl
@[simp] theorem State.reset_sfs : State.reset.sfs = 0 := rfl
@[simp] theorem State.reset_status : State.reset.status = .running := rfl

end Sys2Proof.Machine
end

