-- ==== Sys2Proof/Laws/Ops.lean ====
section
/-! SUPPORT. What each shared operation of Machine/Ops.lean and Machine/Operands.lean can do, said once. -/

namespace Sys2Proof.Machine

@[simp] theorem ok_bind {α β : Type} (a : α) (f : α → Except Fault β) : (Except.ok a >>= f) = f a := rfl
@[simp] theorem error_bind {α β : Type} (k : Fault) (f : α → Except Fault β) :
    ((Except.error k : Except Fault α) >>= f) = .error k := rfl

/-- A bind that succeeds has a first part that succeeds. -/
theorem bind_eq_ok {α β : Type} {x : Except Fault α} {f : α → Except Fault β} {b : β} :
    (x >>= f) = .ok b ↔ ∃ a, x = .ok a ∧ f a = .ok b := by
  cases x <;> simp

@[simp] theorem raise_eq {α : Type} (k : Fault) : (raise k : Except Fault α) = .error k := rfl
@[simp] theorem conclude_ok (s : State) : conclude (.ok s) = .next s := rfl
@[simp] theorem conclude_error (k : Fault) : conclude (.error k) = .fault k := rfl

@[simp] theorem conclude_eq_next {x : Except Fault State} {t : State} : conclude x = .next t ↔ x = .ok t := by
  cases x <;> simp [conclude]
@[simp] theorem conclude_eq_fault {x : Except Fault State} {k : Fault} : conclude x = .fault k ↔ x = .error k := by
  cases x <;> simp [conclude]
@[simp] theorem conclude_ne_refused {x : Except Fault State} {r : Refusal} : conclude x ≠ .refused r := by
  cases x <;> simp [conclude]

/-! ### Memory accesses -/

theorem readU8_ok {a : Word} {s : State} (h : a.toNat < s.mem.len) : readU8 a s = .ok (s.mem.byteAt a.toNat) := by
  simp [readU8, h]

theorem readU8_error {a : Word} {s : State} (h : s.mem.len ≤ a.toNat) : readU8 a s = .error .addressOutOfRange := by
  simp [readU8, h]

theorem writeU8_ok {a : Word} {b : Byte} {s : State} (h : a.toNat < s.mem.len) :
    writeU8 a b s = .ok (s.setMem (s.mem.putByte a.toNat b)) := by
  simp [writeU8, h]

theorem writeU8_error {a : Word} {b : Byte} {s : State} (h : s.mem.len ≤ a.toNat) :
    writeU8 a b s = .error .addressOutOfRange := by
  simp [writeU8, h]

theorem readU16_ok {a : Word} {s : State} (h : a.toNat + 1 < s.mem.len) :
    readU16 a s = .ok (s.mem.wordAt a.toNat) := by
  simp [readU16, h]

theorem readU16_error {a : Word} {s : State} (h : s.mem.len ≤ a.toNat + 1) :
    readU16 a s = .error .addressOutOfRange := by
  simp [readU16, h]

theorem writeU16_ok {a w : Word} {s : State} (h : a.toNat + 1 < s.mem.len) :
    writeU16 a w s = .ok (s.setMem (s.mem.putWord a.toNat w)) := by
  simp [writeU16, h]

theorem writeU16_error {a w : Word} {s : State} (h : s.mem.len ≤ a.toNat + 1) :
    writeU16 a w s = .error .addressOutOfRange := by
  simp [writeU16, h]

/-- A word write that succeeds is in bounds and changes memory only. -/
theorem writeU16_eq_ok {a w : Word} {s t : State} (h : writeU16 a w s = .ok t) :
    a.toNat + 1 < s.mem.len ∧ t = s.setMem (s.mem.putWord a.toNat w) := by
  unfold writeU16 at h
  split at h <;> cases h
  exact ⟨by omega, rfl⟩

/-! ### Register operands -/

theorem readIndex_ok {i : Byte} {r : Reg} (s : State) (h : Reg.ofIndex i = some r) : readIndex i s = .ok (s.reg r) := by
  simp [readIndex, h]

theorem readIndex_error {i : Byte} (s : State) (h : 12 ≤ i.toNat) : readIndex i s = .error .addressOutOfRange := by
  simp [readIndex, Reg.ofIndex_eq_none.mpr h]

theorem writeIndex_ok {i : Byte} {r : Reg} (v : Word) (s : State) (h : Reg.ofIndex i = some r) :
    writeIndex i v s = .ok (s.setReg r v) := by
  simp [writeIndex, h]

theorem writeIndex_error {i : Byte} (v : Word) (s : State) (h : 12 ≤ i.toNat) :
    writeIndex i v s = .error .addressOutOfRange := by
  simp [writeIndex, Reg.ofIndex_eq_none.mpr h]

/-- A read through an index that succeeds gives the register the index names. -/
theorem readIndex_eq_ok {i : Byte} {s : State} {v : Word} :
    readIndex i s = .ok v ↔ ∃ r, Reg.ofIndex i = some r ∧ v = s.reg r := by
  cases h : Reg.ofIndex i <;> simp [readIndex, h, eq_comm]

/-- A write through an index that succeeds changes the register the index names and nothing else. -/
theorem writeIndex_eq_ok {i : Byte} {v : Word} {s t : State} :
    writeIndex i v s = .ok t ↔ ∃ r, Reg.ofIndex i = some r ∧ t = s.setReg r v := by
  cases h : Reg.ofIndex i <;> simp [writeIndex, h, eq_comm]

/-! ### The stack primitives -/

/-- All that `push` can do (R73). -/
theorem push_eq (v : Word) (s : State) :
    push v s =
      if s.mem.len ≤ (s.reg .sp).toNat + 1 then .error .addressOutOfRange
      else .ok (((s.setMem (s.mem.putWord (s.reg .sp).toNat v)).setSfs (s.sfs + 2)).setReg .sp (s.reg .sp - 2)) := by
  unfold push
  by_cases h : s.mem.len ≤ (s.reg .sp).toNat + 1
  · simp [writeU16_error h, h]
  · simp [writeU16_ok (Nat.lt_of_not_le h), h]

/-- All that `pop` can do (R74). -/
theorem pop_eq (s : State) :
    pop s =
      if s.mem.len ≤ (s.reg .sp + 2).toNat + 1 then .error .addressOutOfRange
      else .ok (s.mem.wordAt (s.reg .sp + 2).toNat, (s.setReg .sp (s.reg .sp + 2)).setSfs (s.sfs - 2)) := by
  simp only [pop, readU16, State.reg_setSfs, State.reg_setReg, State.mem_setSfs, State.mem_setReg, State.sfs_setReg,
    if_true]
  split <;> rfl

theorem push_eq_ok {v : Word} {s t : State} (h : push v s = .ok t) :
    (s.reg .sp).toNat + 1 < s.mem.len ∧
      t = ((s.setMem (s.mem.putWord (s.reg .sp).toNat v)).setSfs (s.sfs + 2)).setReg .sp (s.reg .sp - 2) := by
  rw [push_eq] at h
  split at h
  · cases h
  · exact ⟨by omega, by simpa using h.symm⟩

theorem pop_eq_ok {v : Word} {s t : State} (h : pop s = .ok (v, t)) :
    (s.reg .sp + 2).toNat + 1 < s.mem.len ∧ v = s.mem.wordAt (s.reg .sp + 2).toNat ∧
      t = (s.setReg .sp (s.reg .sp + 2)).setSfs (s.sfs - 2) := by
  rw [pop_eq] at h
  split at h
  · cases h
  · simp only [Except.ok.injEq, Prod.mk.injEq] at h
    exact ⟨by omega, h.1.symm, h.2.symm⟩

theorem push_error {v : Word} {s : State} {k : Fault} (h : push v s = .error k) : k = .addressOutOfRange := by
  rw [push_eq] at h
  split at h <;> cases h
  rfl

theorem pop_error {s : State} {k : Fault} (h : pop s = .error k) : k = .addressOutOfRange := by
  rw [pop_eq] at h
  split at h <;> cases h
  rfl

/-! ### Fetching -/

theorem fetchU8_eq (s : State) :
    fetchU8 s =
      if s.mem.len ≤ (s.reg .ip).toNat then .error .addressOutOfRange
      else .ok (s.mem.byteAt (s.reg .ip).toNat, s.setReg .ip (s.reg .ip + 1)) := by
  unfold fetchU8 readU8
  split <;> simp

theorem fetchU16_eq (s : State) :
    fetchU16 s =
      if s.mem.len ≤ (s.reg .ip).toNat + 1 then .error .addressOutOfRange
      else .ok (s.mem.wordAt (s.reg .ip).toNat, s.setReg .ip (s.reg .ip + 2)) := by
  unfold fetchU16 readU16
  split <;> simp

theorem setReg_setReg_same (s : State) (r : Reg) (v w : Word) : (s.setReg r v).setReg r w = s.setReg r w := by
  cases r <;> rfl

theorem setReg_reg_same (s : State) (r : Reg) : s.setReg r (s.reg r) = s := by
  cases r <;> rfl

/-- One operand fetch reads its bytes in order and moves IP past them, or faults where a byte is outside memory. -/
theorem fetchField_eq (f : OperandField) (s : State) :
    fetchField f s =
      if s.mem.len < (s.reg .ip).toNat + f.size then .error .addressOutOfRange
      else .ok (s.mem.bytesFrom (s.reg .ip).toNat f.size, s.setReg .ip (s.reg .ip + BitVec.ofNat 16 f.size)) := by
  cases f with
  | u8 =>
    have h : (s.mem.len < (s.reg .ip).toNat + 1) = (s.mem.len ≤ (s.reg .ip).toNat) := propext (by omega)
    simp only [fetchField, fetchU8_eq, OperandField.size, h]
    split <;> simp [Memory.bytesFrom]
  | u16 =>
    have h : (s.mem.len < (s.reg .ip).toNat + 2) = (s.mem.len ≤ (s.reg .ip).toNat + 1) := propext (by omega)
    simp only [fetchField, fetchU16_eq, OperandField.size, h]
    split <;> simp [Memory.bytesFrom, Memory.wordAt]

/-- All operand fetches of a format together: the bytes in order and IP past them, or the fault. -/
theorem fetchFields_eq (fs : List OperandField) (s : State) (hlen : s.mem.len ≤ 65535)
    (hip : (s.reg .ip).toNat ≤ s.mem.len) :
    fetchFields fs s =
      if s.mem.len < (s.reg .ip).toNat + fieldsSize fs then .error .addressOutOfRange
      else .ok (s.mem.bytesFrom (s.reg .ip).toNat (fieldsSize fs),
        s.setReg .ip (s.reg .ip + BitVec.ofNat 16 (fieldsSize fs))) := by
  induction fs generalizing s with
  | nil =>
    have h : ¬ s.mem.len < (s.reg .ip).toNat := by omega
    simp [fetchFields, fieldsSize, h, Memory.bytesFrom, setReg_reg_same]
  | cons f fs ih =>
    simp only [fetchFields, fetchField_eq, fieldsSize]
    by_cases h1 : s.mem.len < (s.reg .ip).toNat + f.size
    · have h2 : s.mem.len < (s.reg .ip).toNat + (f.size + fieldsSize fs) := by omega
      simp [h1, h2]
    · have hadd : (s.reg .ip + BitVec.ofNat 16 f.size).toNat = (s.reg .ip).toNat + f.size := by
        have : f.size < 65536 := by cases f <;> decide
        rw [BitVec.toNat_add, BitVec.toNat_ofNat]
        omega
      have hstep := ih (s.setReg .ip (s.reg .ip + BitVec.ofNat 16 f.size)) (by simpa using hlen)
        (by simp [hadd]; omega)
      simp only [State.reg_setReg, if_true, State.mem_setReg, hadd] at hstep
      by_cases h2 : s.mem.len < (s.reg .ip).toNat + (f.size + fieldsSize fs)
      · have h3 : s.mem.len < (s.reg .ip).toNat + f.size + fieldsSize fs := by omega
        simp [h1, h2, hstep, h3]
      · have h3 : ¬ s.mem.len < (s.reg .ip).toNat + f.size + fieldsSize fs := by omega
        simp [h1, h2, hstep, h3, setReg_setReg_same, Memory.bytesFrom_append, BitVec.add_assoc, BitVec.ofNat_add]

/-- The fetch half of a step (R60 to R63, R87), in a memory of an admitted length: the opcode byte is outside memory;
or it is illegal; or an operand byte is outside memory; or the row's bytes decode to an instruction of that row and IP
moves past them. -/
theorem fetchInstr_cases (s : State) (hlen : s.mem.len ≤ 65535) :
    (s.mem.len ≤ (s.reg .ip).toNat ∧ fetchInstr s = .error .addressOutOfRange) ∨
    ((s.reg .ip).toNat < s.mem.len ∧ Opcode.ofByte (s.mem.byteAt (s.reg .ip).toNat) = none ∧
      fetchInstr s = .error .unknownOpcode) ∨
    (∃ o, (s.reg .ip).toNat < s.mem.len ∧ Opcode.ofByte (s.mem.byteAt (s.reg .ip).toNat) = some o ∧
      s.mem.len < (s.reg .ip).toNat + o.length ∧ fetchInstr s = .error .addressOutOfRange) ∨
    (∃ i : Instr, (s.reg .ip).toNat + i.length ≤ s.mem.len ∧
      decode (s.mem.bytesFrom (s.reg .ip).toNat i.length) = .ok (i, []) ∧
      fetchInstr s = .ok (i, s.setReg .ip (s.reg .ip + BitVec.ofNat 16 i.length))) := by
  by_cases hip : s.mem.len ≤ (s.reg .ip).toNat
  · exact .inl ⟨hip, by simp [fetchInstr, fetchU8_eq, hip]⟩
  right
  have hip' : (s.reg .ip).toNat < s.mem.len := by omega
  cases ho : Opcode.ofByte (s.mem.byteAt (s.reg .ip).toNat) with
  | none => exact .inl ⟨hip', rfl, by simp [fetchInstr, fetchU8_eq, hip, ho]⟩
  | some o =>
    right
    have hadd : (s.reg .ip + 1#16).toNat = (s.reg .ip).toNat + 1 := by
      rw [BitVec.toNat_add, BitVec.toNat_ofNat]
      omega
    have hf := fetchFields_eq o.format.fields (s.setReg .ip (s.reg .ip + 1)) (by simpa using hlen)
      (by simp [hadd]; omega)
    simp only [State.reg_setReg, if_true, State.mem_setReg, setReg_setReg_same] at hf
    simp only [BitVec.ofNat_eq_ofNat, hadd] at hf
    by_cases hc : s.mem.len < (s.reg .ip).toNat + o.length
    · have hc' : s.mem.len < (s.reg .ip).toNat + 1 + fieldsSize o.format.fields := by
        unfold Opcode.length at hc; omega
      rw [if_pos hc'] at hf
      exact .inl ⟨o, hip', rfl, hc, by simp [fetchInstr, fetchU8_eq, hip, ho, hf]⟩
    · right
      have hc' : ¬ s.mem.len < (s.reg .ip).toNat + 1 + fieldsSize o.format.fields := by
        unfold Opcode.length at hc; omega
      rw [if_neg hc'] at hf
      obtain ⟨i, hi, hd⟩ := decodeOperands_total o
        (s.mem.bytesFrom ((s.reg .ip).toNat + 1) (fieldsSize o.format.fields)) [] (by simp)
      have hlen' : i.length = fieldsSize o.format.fields + 1 := by
        simp only [Instr.length, hi, Opcode.length]; omega
      have hdec : decode (s.mem.byteAt (s.reg .ip).toNat ::
          s.mem.bytesFrom ((s.reg .ip).toNat + 1) (fieldsSize o.format.fields)) = .ok (i, []) := by
        simpa [decode, ho] using hd
      refine ⟨i, ?_, ?_, ?_⟩
      · simp only [Instr.length, hi]; omega
      · rw [hlen']; exact hdec
      · simp only [fetchInstr, fetchU8_eq, hip, if_false, ok_bind, ho, BitVec.ofNat_eq_ofNat, hf, hdec]
        rw [hlen', BitVec.add_assoc, ← BitVec.ofNat_add, Nat.add_comm 1]

end Sys2Proof.Machine
end

