-- ==== Sys2Proof/Laws/Call.lean ====
section
/-! SUPPORT. What the stack-frame unit can do (spec/45_call.md R80, R81), said once: runs of pushes and pops, push_state
and pop_state. -/

namespace Sys2Proof.Machine

/-! ### Slots -/

theorem toNat_two : (2 : Word).toNat = 2 := rfl

@[simp] theorem pushSlot_zero (sp : Word) : pushSlot sp 0 = sp := by simp [pushSlot]
@[simp] theorem popSlot_zero (sp : Word) : popSlot sp 0 = sp := by simp [popSlot]

theorem pushSlot_succ (sp : Word) (k : Nat) : pushSlot (sp - 2) k = pushSlot sp (k + 1) := by
  apply BitVec.eq_of_toNat_eq
  simp only [pushSlot, BitVec.toNat_sub, BitVec.toNat_ofNat, toNat_two]
  omega

theorem popSlot_succ (sp : Word) (k : Nat) : popSlot (sp + 2) k = popSlot sp (k + 1) := by
  apply BitVec.eq_of_toNat_eq
  simp only [popSlot, BitVec.toNat_add, BitVec.toNat_ofNat, toNat_two]
  omega

theorem popSlot_popSlot (sp : Word) (j k : Nat) : popSlot (popSlot sp j) k = popSlot sp (j + k) := by
  apply BitVec.eq_of_toNat_eq
  simp only [popSlot, BitVec.toNat_add, BitVec.toNat_ofNat]
  omega

theorem popSlot_pushSlot (sp : Word) {j k : Nat} (h : j ≤ k) : popSlot (pushSlot sp k) j = pushSlot sp (k - j) := by
  apply BitVec.eq_of_toNat_eq
  simp only [popSlot, pushSlot, BitVec.toNat_add, BitVec.toNat_sub, BitVec.toNat_ofNat]
  omega

theorem popSlot_pushSlot_above (sp : Word) {j k : Nat} (h : k ≤ j) :
    popSlot (pushSlot sp k) j = popSlot sp (j - k) := by
  apply BitVec.eq_of_toNat_eq
  simp only [popSlot, pushSlot, BitVec.toNat_add, BitVec.toNat_sub, BitVec.toNat_ofNat]
  omega

/-- Two different pushes of one frame write disjoint words, wherever SP wraps. -/
theorem pushSlot_disjoint (sp : Word) {j k : Nat} (hj : j < 16384) (hk : k < 16384) (h : j ≠ k) :
    (pushSlot sp j).toNat + 1 < (pushSlot sp k).toNat ∨ (pushSlot sp k).toNat + 1 < (pushSlot sp j).toNat := by
  simp only [pushSlot, BitVec.toNat_sub, BitVec.toNat_ofNat]
  omega

/-! ### Runs of pushes -/

/-- Push the words of a list, the first one first. -/
def pushWords : List Word → State → Except Fault State
  | [], s => .ok s
  | v :: rest, s => do
    let s1 ← push v s
    pushWords rest s1

/-- The bank after the words of a list are written from `sp` downward. -/
def putWords (m : Memory) : Word → List Word → Memory
  | _, [] => m
  | sp, v :: rest => putWords (m.putWord sp.toNat v) (sp - 2) rest

@[simp] theorem len_putWords (m : Memory) (sp : Word) (vs : List Word) : (putWords m sp vs).len = m.len := by
  induction vs generalizing m sp with
  | nil => rfl
  | cons v rest ih => simp [putWords, ih]

theorem wf_putWords {m : Memory} (h : m.wf = true) {sp : Word} {vs : List Word}
    (hb : ∀ k, k < vs.length → (pushSlot sp k).toNat + 1 < m.len) : (putWords m sp vs).wf = true := by
  induction vs generalizing m sp with
  | nil => exact h
  | cons v rest ih =>
    have h0 : sp.toNat + 1 < m.len := by simpa using hb 0 (by simp)
    apply ih (Memory.wf_putWord h h0 v)
    intro k hk
    rw [pushSlot_succ]
    exact hb (k + 1) (by simpa using hk)

/-- A byte outside every word of a run of pushes is unchanged. -/
theorem byteAt_putWords {m : Memory} (h : m.wf = true) {sp : Word} {vs : List Word}
    (hb : ∀ k, k < vs.length → (pushSlot sp k).toNat + 1 < m.len) {x : Nat}
    (hx : ∀ k, k < vs.length → x ≠ (pushSlot sp k).toNat ∧ x ≠ (pushSlot sp k).toNat + 1) :
    (putWords m sp vs).byteAt x = m.byteAt x := by
  induction vs generalizing m sp with
  | nil => rfl
  | cons v rest ih =>
    have h0 : sp.toNat + 1 < m.len := by simpa using hb 0 (by simp)
    have hx0 : x ≠ sp.toNat ∧ x ≠ sp.toNat + 1 := by simpa using hx 0 (by simp)
    unfold putWords
    rw [ih (Memory.wf_putWord h h0 v), Memory.byteAt_putWord h h0]
    · simp [hx0.1, hx0.2]
    · intro k hk
      rw [pushSlot_succ]
      exact hb (k + 1) (by simpa using hk)
    · intro k hk
      rw [pushSlot_succ]
      exact hx (k + 1) (by simpa using hk)

/-- A word that no push of a run touches is unchanged. -/
theorem wordAt_putWords_of_disjoint {m : Memory} (h : m.wf = true) {sp : Word} {vs : List Word}
    (hb : ∀ k, k < vs.length → (pushSlot sp k).toNat + 1 < m.len) {x : Nat}
    (hx : ∀ k, k < vs.length → x + 1 < (pushSlot sp k).toNat ∨ (pushSlot sp k).toNat + 1 < x) :
    (putWords m sp vs).wordAt x = m.wordAt x := by
  unfold Memory.wordAt
  rw [byteAt_putWords h hb, byteAt_putWords h hb]
  · intro k hk; have := hx k hk; omega
  · intro k hk; have := hx k hk; omega

/-- The `k`-th word of a run of pushes stands at the `k`-th slot (R75, R79). -/
theorem wordAt_putWords {m : Memory} (h : m.wf = true) {sp : Word} {vs : List Word} (hn : vs.length < 16384)
    (hb : ∀ k, k < vs.length → (pushSlot sp k).toNat + 1 < m.len) (k : Nat) (hk : k < vs.length) :
    (putWords m sp vs).wordAt (pushSlot sp k).toNat = vs[k] := by
  induction vs generalizing m sp k with
  | nil => exact absurd hk (by simp)
  | cons v rest ih =>
    have hn' : rest.length < 16384 := by simp at hn; omega
    have h0 : sp.toNat + 1 < m.len := by simpa using hb 0 (by simp)
    have hb' : ∀ j, j < rest.length → (pushSlot (sp - 2) j).toNat + 1 < (m.putWord sp.toNat v).len := by
      intro j hj
      rw [pushSlot_succ]
      exact hb (j + 1) (by simpa using hj)
    cases k with
    | zero =>
      unfold putWords
      rw [wordAt_putWords_of_disjoint (Memory.wf_putWord h h0 v) hb']
      · simp [Memory.wordAt_putWord h h0]
      · intro j hj
        rw [pushSlot_succ]
        exact pushSlot_disjoint sp (by omega) (by omega) (by omega)
    | succ k =>
      have := ih (Memory.wf_putWord h h0 v) hn' hb' k (by simpa using hk)
      rw [pushSlot_succ] at this
      simpa [putWords] using this

/-- A run of pushes that all lie in memory. -/
theorem pushWords_ok (vs : List Word) (s : State)
    (hb : ∀ k, k < vs.length → wordInMemory (pushSlot (s.reg .sp) k) s) :
    pushWords vs s =
      .ok (((s.setMem (putWords s.mem (s.reg .sp) vs)).setSfs (s.sfs + BitVec.ofNat 16 (2 * vs.length))).setReg .sp
        (pushSlot (s.reg .sp) vs.length)) := by
  induction vs generalizing s with
  | nil =>
    simp only [pushWords, putWords, List.length_nil, pushSlot_zero]
    congr 1
    apply State.ext_reg <;> simp
  | cons v rest ih =>
    have h0 : ¬ s.mem.len ≤ (s.reg .sp).toNat + 1 := by
      have := hb 0 (by simp)
      simp only [pushSlot_zero, wordInMemory] at this
      omega
    simp only [pushWords, push_eq, if_neg h0, ok_bind]
    rw [ih]
    · congr 1
      apply State.ext_reg
      · simp [putWords]
      · intro r
        simp only [State.reg_setReg, State.reg_setSfs, State.reg_setMem, if_true, pushSlot_succ, List.length_cons]
        split <;> rfl
      · simp only [State.sfs_setReg, State.sfs_setSfs, List.length_cons, BitVec.add_assoc]
        congr 1
        rw [show 2 * (rest.length + 1) = 2 + 2 * rest.length by omega, BitVec.ofNat_add]
        rfl
      · simp
    · intro k hk
      have := hb (k + 1) (by simpa using hk)
      simpa only [wordInMemory, State.reg_setReg, if_true, State.mem_setReg, State.mem_setSfs, State.mem_setMem,
        Memory.len_putWord, pushSlot_succ] using this

/-- A run of pushes one of which lies outside memory. -/
theorem pushWords_error (vs : List Word) (s : State) {k : Nat} (hk : k < vs.length)
    (hb : ¬ wordInMemory (pushSlot (s.reg .sp) k) s) : pushWords vs s = .error .addressOutOfRange := by
  induction vs generalizing s k with
  | nil => exact absurd hk (by simp)
  | cons v rest ih =>
    simp only [pushWords, push_eq]
    split
    · rfl
    · rename_i h0
      cases k with
      | zero =>
        simp only [pushSlot_zero, wordInMemory] at hb
        omega
      | succ k =>
        apply ih _ (k := k) (by simpa using hk)
        simpa only [wordInMemory, State.reg_setReg, if_true, State.mem_setReg, State.mem_setSfs, State.mem_setMem,
          Memory.len_putWord, pushSlot_succ] using hb

theorem pushRegs_eq (rs : List Reg) (s : State) (h : Reg.sp ∉ rs) : pushRegs rs s = pushWords (rs.map s.reg) s := by
  induction rs generalizing s with
  | nil => rfl
  | cons r rest ih =>
    simp only [pushRegs, List.map_cons, pushWords]
    have hrest : Reg.sp ∉ rest := fun hm => h (List.mem_cons_of_mem _ hm)
    cases hp : push (s.reg r) s with
    | error k => rfl
    | ok s1 =>
      simp only [ok_bind, ih s1 hrest]
      congr 1
      apply List.map_congr_left
      intro q hq
      have hq' : q ≠ .sp := fun e => hrest (e ▸ hq)
      simp [(push_eq_ok hp).2, hq']

theorem pushWords_append (vs ws : List Word) (s : State) :
    pushWords (vs ++ ws) s = pushWords vs s >>= pushWords ws := by
  induction vs generalizing s with
  | nil => rfl
  | cons v rest ih =>
    simp only [List.cons_append, pushWords]
    cases push v s with
    | error k => rfl
    | ok s1 => simp [ih]

/-- A run of pushes that succeeds leaves every other register, and counts its bytes. -/
theorem pushWords_reg {vs : List Word} {s t : State} (h : pushWords vs s = .ok t) :
    (∀ q, q ≠ .sp → t.reg q = s.reg q) ∧ t.sfs = s.sfs + BitVec.ofNat 16 (2 * vs.length) := by
  by_cases hb : ∀ k, k < vs.length → wordInMemory (pushSlot (s.reg .sp) k) s
  · rw [pushWords_ok vs s hb] at h
    cases h
    exact ⟨fun q hq => by simp [hq], by simp⟩
  · push Not at hb
    obtain ⟨k, hk, hbk⟩ := hb
    rw [pushWords_error vs s hk hbk] at h
    cases h

/-- push_state is ten pushes of the frame's words (R79, R80), then `sfs` is 0 and FP is SP. -/
theorem pushState_eq (s : State) :
    pushState s = (do
      let t ← pushWords (frameWords s) s
      .ok ((t.setSfs 0).setReg .fp (t.reg .sp))) := by
  have hsplit : frameWords s = savedRegs.map s.reg ++ [s.reg .ip, s.sfs + 20] := rfl
  unfold pushState
  rw [pushRegs_eq _ _ (by decide), hsplit, pushWords_append]
  cases hp : pushWords (savedRegs.map s.reg) s with
  | error k => rfl
  | ok s1 =>
    obtain ⟨hr, hf⟩ := pushWords_reg hp
    simp only [ok_bind, pushWords, hr .ip (by decide)]
    cases hq : push (s.reg .ip) s1 with
    | error k => rfl
    | ok s2 =>
      have hsfs : s2.sfs + 2 = s.sfs + 20 := by
        have hlen : BitVec.ofNat 16 (2 * (savedRegs.map s.reg).length) = 16#16 := rfl
        rw [(push_eq_ok hq).2]
        simp only [State.sfs_setReg, State.sfs_setSfs, hf, hlen, BitVec.add_assoc]
        rfl
      simp only [ok_bind, hsfs]
      cases push (s.sfs + 20) s2 <;> rfl

theorem frameWords_length (s : State) : (frameWords s).length = 10 := rfl

/-- push_state where all ten words lie in memory (R79, R80). -/
theorem pushState_ok (s : State) (hb : ∀ k, k < 10 → wordInMemory (pushSlot (s.reg .sp) k) s) :
    ∃ t, pushState s = .ok t ∧ t.mem = putWords s.mem (s.reg .sp) (frameWords s) ∧ t.sfs = 0 ∧
      t.status = s.status ∧ t.reg .sp = pushSlot (s.reg .sp) 10 ∧ t.reg .fp = pushSlot (s.reg .sp) 10 ∧
      ∀ q, q ≠ .sp → q ≠ .fp → t.reg q = s.reg q := by
  rw [pushState_eq, pushWords_ok _ _ (by simpa [frameWords_length] using hb)]
  refine ⟨_, rfl, by simp, by simp, by simp, by simp [frameWords_length], by simp [frameWords_length], ?_⟩
  intro q hs hf
  simp [hs, hf]

/-- push_state where one of the ten words lies outside memory. -/
theorem pushState_error (s : State) {k : Nat} (hk : k < 10) (hb : ¬ wordInMemory (pushSlot (s.reg .sp) k) s) :
    pushState s = .error .addressOutOfRange := by
  rw [pushState_eq, pushWords_error _ _ (by simpa [frameWords_length] using hk) hb]
  rfl

/-! ### Runs of pops -/

/-- `n` discarded pops that all lie in memory. -/
theorem discard_ok (n : Nat) (s : State)
    (hb : ∀ k, 1 ≤ k → k ≤ n → wordInMemory (popSlot (s.reg .sp) k) s) :
    discard n s = .ok ((s.setReg .sp (popSlot (s.reg .sp) n)).setSfs (s.sfs - BitVec.ofNat 16 (2 * n))) := by
  induction n generalizing s with
  | zero =>
    simp only [discard, popSlot_zero]
    congr 1
    apply State.ext_reg <;> simp
  | succ n ih =>
    have h0 : ¬ s.mem.len ≤ (s.reg .sp + 2).toNat + 1 := by
      have := hb 1 (by omega) (by omega)
      rw [← popSlot_succ, popSlot_zero] at this
      unfold wordInMemory at this
      omega
    simp only [discard, pop_eq, if_neg h0, ok_bind]
    rw [ih]
    · congr 1
      apply State.ext_reg
      · simp
      · intro r
        simp only [State.reg_setReg, State.reg_setSfs, if_true, popSlot_succ]
        split <;> rfl
      · apply BitVec.eq_of_toNat_eq
        simp only [State.sfs_setSfs, BitVec.toNat_sub, BitVec.toNat_ofNat, toNat_two]
        omega
      · simp
    · intro k h1 h2
      have := hb (k + 1) (by omega) (by omega)
      simpa only [wordInMemory, State.reg_setReg, State.reg_setSfs, if_true, State.mem_setReg, State.mem_setSfs,
        popSlot_succ] using this

/-- `n` discarded pops one of which lies outside memory. -/
theorem discard_error (n : Nat) (s : State) {k : Nat} (h1 : 1 ≤ k) (h2 : k ≤ n)
    (hb : ¬ wordInMemory (popSlot (s.reg .sp) k) s) : discard n s = .error .addressOutOfRange := by
  induction n generalizing s k with
  | zero => omega
  | succ n ih =>
    simp only [discard, pop_eq]
    split
    · rfl
    · rename_i h0
      obtain ⟨k, rfl⟩ : ∃ j, k = j + 1 := ⟨k - 1, by omega⟩
      rw [← popSlot_succ] at hb
      cases k with
      | zero =>
        simp only [popSlot_zero, wordInMemory] at hb
        omega
      | succ k =>
        apply ih _ (k := k + 1) (by omega) (by omega)
        simpa only [wordInMemory, State.reg_setReg, State.reg_setSfs, if_true, State.mem_setReg,
          State.mem_setSfs] using hb

/-- Pops into distinct registers other than SP that all lie in memory: the first register gets the first word. -/
theorem popRegs_ok (rs : List Reg) (s : State) (hsp : Reg.sp ∉ rs) (hnd : rs.Nodup)
    (hb : ∀ k, 1 ≤ k → k ≤ rs.length → wordInMemory (popSlot (s.reg .sp) k) s) :
    ∃ t, popRegs rs s = .ok t ∧ t.mem = s.mem ∧ t.sfs = s.sfs - BitVec.ofNat 16 (2 * rs.length) ∧
      t.status = s.status ∧ t.reg .sp = popSlot (s.reg .sp) rs.length ∧
      (∀ q, q ≠ .sp → q ∉ rs → t.reg q = s.reg q) ∧
      ∀ k (hk : k < rs.length), t.reg rs[k] = s.mem.wordAt (popSlot (s.reg .sp) (k + 1)).toNat := by
  induction rs generalizing s with
  | nil => exact ⟨s, rfl, rfl, by simp, rfl, by simp, fun _ _ _ => rfl, fun k hk => absurd hk (by simp)⟩
  | cons r rest ih =>
    have hrsp : r ≠ .sp := fun e => hsp (by simp [e])
    have h0 : ¬ s.mem.len ≤ (s.reg .sp + 2).toNat + 1 := by
      have := hb 1 (by omega) (by simp)
      rw [← popSlot_succ, popSlot_zero] at this
      unfold wordInMemory at this
      omega
    have hsp1 : ∀ (v : Word), ((((s.setReg .sp (s.reg .sp + 2)).setSfs (s.sfs - 2)).setReg r v).reg .sp) =
        s.reg .sp + 2 := by
      intro v
      simp [Ne.symm hrsp]
    obtain ⟨t, h1, h2, h3, h4, h5, h6, h7⟩ := ih
      (((s.setReg .sp (s.reg .sp + 2)).setSfs (s.sfs - 2)).setReg r (s.mem.wordAt (s.reg .sp + 2).toNat))
      (fun hm => hsp (List.mem_cons_of_mem _ hm)) (List.nodup_cons.mp hnd).2
      (by
        intro k hk1 hk2
        have := hb (k + 1) (by omega) (by simpa using hk2)
        rw [hsp1, popSlot_succ]
        simpa only [wordInMemory, State.mem_setReg, State.mem_setSfs] using this)
    rw [hsp1] at h5 h7
    refine ⟨t, ?_, h2, ?_, h4, ?_, ?_, ?_⟩
    · simp only [popRegs, pop_eq, if_neg h0, ok_bind, h1]
    · rw [h3]
      apply BitVec.eq_of_toNat_eq
      simp only [State.sfs_setReg, State.sfs_setSfs, BitVec.toNat_sub, BitVec.toNat_ofNat, List.length_cons, toNat_two]
      omega
    · rw [h5, popSlot_succ, List.length_cons]
    · intro q hq hqm
      have hqr : q ≠ r := fun e => hqm (by simp [e])
      rw [h6 q hq (fun hm => hqm (List.mem_cons_of_mem _ hm))]
      simp [hqr, hq]
    · intro k hk
      cases k with
      | zero =>
        have hr : r ∉ rest := (List.nodup_cons.mp hnd).1
        have := h6 r hrsp hr
        rw [List.getElem_cons_zero, this, ← popSlot_succ, popSlot_zero]
        simp
      | succ k =>
        rw [List.getElem_cons_succ, h7 k (by simpa using hk), popSlot_succ]
        simp

/-- Pops into registers other than SP one of which lies outside memory. -/
theorem popRegs_error (rs : List Reg) (s : State) (hsp : Reg.sp ∉ rs) {k : Nat} (h1 : 1 ≤ k) (h2 : k ≤ rs.length)
    (hb : ¬ wordInMemory (popSlot (s.reg .sp) k) s) : popRegs rs s = .error .addressOutOfRange := by
  induction rs generalizing s k with
  | nil => simp at h2; omega
  | cons r rest ih =>
    have hrsp : r ≠ .sp := fun e => hsp (by simp [e])
    simp only [popRegs, pop_eq]
    split
    · rfl
    · rename_i h0
      obtain ⟨k, rfl⟩ : ∃ j, k = j + 1 := ⟨k - 1, by omega⟩
      rw [← popSlot_succ] at hb
      cases k with
      | zero =>
        simp only [popSlot_zero, wordInMemory] at hb
        omega
      | succ k =>
        apply ih _ (fun hm => hsp (List.mem_cons_of_mem _ hm)) (k := k + 1) (by omega)
          (by simp only [List.length_cons] at h2; omega)
        simpa [wordInMemory, Ne.symm hrsp] using hb

/-- The pop at the next slot. -/
theorem pop_slot {s : State} {a : Word} {k : Nat} (hsp : s.reg .sp = popSlot a k) (hb : wordInMemory (popSlot a (k + 1)) s) :
    pop s = .ok (s.mem.wordAt (popSlot a (k + 1)).toNat,
      (s.setReg .sp (popSlot a (k + 1))).setSfs (s.sfs - 2)) := by
  have hslot : s.reg .sp + 2 = popSlot a (k + 1) := by rw [hsp]; exact popSlot_popSlot a k 1
  rw [pop_eq, hslot, if_neg (Nat.not_le.mpr hb)]

/-- The pop at the next slot, where it lies outside memory. -/
theorem pop_slot_error {s : State} {a : Word} {k : Nat} (hsp : s.reg .sp = popSlot a k)
    (hb : ¬ wordInMemory (popSlot a (k + 1)) s) : pop s = .error .addressOutOfRange := by
  have hslot : s.reg .sp + 2 = popSlot a (k + 1) := by rw [hsp]; exact popSlot_popSlot a k 1
  rw [pop_eq, hslot, if_pos (Nat.not_lt.mp hb)]

/-- pop_state after its first ten pops, the marker, IP and R8..R1, which lie in memory: the count and the discards
are left. -/
theorem popState_frame (s : State) (hb : ∀ k, 1 ≤ k → k ≤ 10 → wordInMemory (popSlot (s.reg .fp) k) s) :
    ∃ t, popState s = (do
        let (n, s4) ← pop t
        let s5 ← discard n.toNat s4
        .ok (s5.setReg .fp (s.reg .fp + retMarker s))) ∧
      t.mem = s.mem ∧ t.status = s.status ∧ t.sfs = retMarker s - 18 ∧ t.reg .sp = popSlot (s.reg .fp) 10 ∧
      t.reg .acc = s.reg .acc ∧ t.reg .ip = s.mem.wordAt (popSlot (s.reg .fp) 2).toNat ∧
      ∀ k (hk : k < savedRegs.length), t.reg savedRegs[k] = s.mem.wordAt (popSlot (s.reg .fp) (10 - k)).toNat := by
  obtain ⟨s1, hs1, hm1, hr1, hf1, hu1⟩ : ∃ s1, pop (s.setReg .sp (s.reg .fp)) = .ok (retMarker s, s1) ∧
      s1.mem = s.mem ∧ (∀ q, s1.reg q = if q = .sp then popSlot (s.reg .fp) 1 else s.reg q) ∧
      s1.sfs = s.sfs - 2 ∧ s1.status = s.status := by
    have hsp : (s.setReg .sp (s.reg .fp)).reg .sp = popSlot (s.reg .fp) 0 := by simp
    refine ⟨_, pop_slot hsp (hb 1 (by omega) (by omega)), rfl, ?_, rfl, rfl⟩
    intro q
    by_cases hq : q = .sp <;> simp [hq]
  obtain ⟨s2, hs2, hm2, hr2, hf2, hu2⟩ : ∃ s2, pop (s1.setSfs (retMarker s)) =
        .ok (s.mem.wordAt (popSlot (s.reg .fp) 2).toNat, s2) ∧
      s2.mem = s.mem ∧ (∀ q, s2.reg q = if q = .sp then popSlot (s.reg .fp) 2 else s.reg q) ∧
      s2.sfs = retMarker s - 2 ∧ s2.status = s.status := by
    have hsp : (s1.setSfs (retMarker s)).reg .sp = popSlot (s.reg .fp) 1 := by simp [hr1]
    have hin : wordInMemory (popSlot (s.reg .fp) 2) (s1.setSfs (retMarker s)) := by
      have := hb 2 (by omega) (by omega)
      simpa [wordInMemory, hm1] using this
    have h := pop_slot hsp hin
    rw [State.mem_setSfs, hm1] at h
    refine ⟨_, h, hm1, ?_, rfl, hu1⟩
    intro q
    by_cases hq : q = .sp <;> simp [hq, hr1]
  obtain ⟨t, h1, h2, h3, h4, h5, h6, h7⟩ := popRegs_ok savedRegs.reverse
    (s2.setReg .ip (s.mem.wordAt (popSlot (s.reg .fp) 2).toNat)) (by decide) (by decide)
    (by
      intro k hk1 hk2
      have hk2' : k ≤ 8 := hk2
      have h := hb (2 + k) (by omega) (by omega)
      simpa [wordInMemory, popSlot_popSlot, hr2, hm2] using h)
  have hsp2 : (s2.setReg .ip (s.mem.wordAt (popSlot (s.reg .fp) 2).toNat)).reg .sp = popSlot (s.reg .fp) 2 := by
    simp [hr2]
  have hlen : savedRegs.reverse.length = 8 := rfl
  rw [hsp2] at h5 h7
  refine ⟨t, ?_, ?_, ?_, ?_, ?_, ?_, ?_, ?_⟩
  · unfold popState
    simp only [hs1, hs2, ok_bind, h1]
  · rw [h2, State.mem_setReg, hm2]
  · rw [h4, State.status_setReg, hu2]
  · rw [h3, State.sfs_setReg, hf2, hlen]
    apply BitVec.eq_of_toNat_eq
    simp only [BitVec.toNat_sub, BitVec.toNat_ofNat, BitVec.ofNat_eq_ofNat]
    omega
  · rw [h5]
    exact popSlot_popSlot _ 2 8
  · rw [h6 .acc (by decide) (by decide)]
    simp [hr2]
  · rw [h6 .ip (by decide) (by decide)]
    simp
  · intro k hk
    have hk' : k < 8 := hk
    have h := h7 (7 - k) (by omega)
    have hget : savedRegs.reverse[7 - k]'(by omega) = savedRegs[k] := by
      rw [List.getElem_reverse]
      congr 1
      simp only [savedRegs, List.length_cons, List.length_nil]
      omega
    rw [hget] at h
    refine Eq.trans h ?_
    rw [popSlot_popSlot, State.mem_setReg, hm2]
    congr 3
    omega

/-- pop_state where all its pops lie in memory (R81): `popSlot fp k` is the address of the `k`-th pop. -/
theorem popState_ok (s : State)
    (hb : ∀ k, 1 ≤ k → k ≤ 11 + (retCount s).toNat → wordInMemory (popSlot (s.reg .fp) k) s) :
    ∃ t, popState s = .ok t ∧ t.mem = s.mem ∧ t.status = s.status ∧
      t.sfs = retMarker s - 20 - BitVec.ofNat 16 (2 * (retCount s).toNat) ∧
      t.reg .sp = popSlot (s.reg .fp) (11 + (retCount s).toNat) ∧
      t.reg .fp = s.reg .fp + retMarker s ∧ t.reg .acc = s.reg .acc ∧
      t.reg .ip = s.mem.wordAt (popSlot (s.reg .fp) 2).toNat ∧
      ∀ k (hk : k < savedRegs.length), t.reg savedRegs[k] = s.mem.wordAt (popSlot (s.reg .fp) (10 - k)).toNat := by
  obtain ⟨t, h1, h2, h3, h4, h5, h6, h7, h8⟩ := popState_frame s (fun k hk1 hk2 => hb k hk1 (by omega))
  have hpop := pop_slot (s := t) h5 (by simpa [wordInMemory, h2] using hb 11 (by omega) (by omega))
  rw [h2] at hpop
  have hdis := discard_ok (retCount s).toNat ((t.setReg .sp (popSlot (s.reg .fp) 11)).setSfs (t.sfs - 2))
    (by
      intro k hk1 hk2
      have h := hb (11 + k) (by omega) (by omega)
      simpa [wordInMemory, h2, popSlot_popSlot] using h)
  simp only [State.reg_setSfs, State.reg_setReg, if_true, popSlot_popSlot, State.sfs_setSfs] at hdis
  rw [h1, hpop]
  simp only [ok_bind]
  have hcount : s.mem.wordAt (popSlot (s.reg .fp) (10 + 1)).toNat = retCount s := rfl
  rw [hcount, hdis]
  refine ⟨_, rfl, ?_, ?_, ?_, ?_, ?_, ?_, ?_, ?_⟩
  · simp [h2]
  · simp [h3]
  · simp only [State.sfs_setReg, State.sfs_setSfs, h4]
    congr 1
    apply BitVec.eq_of_toNat_eq
    simp only [BitVec.toNat_sub, BitVec.toNat_ofNat, BitVec.ofNat_eq_ofNat]
    omega
  · simp
  · simp
  · simp [h6]
  · simp [h7]
  · intro k hk
    have hne1 : savedRegs[k] ≠ .sp := fun e => absurd (e ▸ List.getElem_mem hk : Reg.sp ∈ savedRegs) (by decide)
    have hne2 : savedRegs[k] ≠ .fp := fun e => absurd (e ▸ List.getElem_mem hk : Reg.fp ∈ savedRegs) (by decide)
    simp [hne1, hne2, h8 k hk]

/-- pop_state where one of its first ten pops lies outside memory. -/
theorem popState_frame_error (s : State) {k : Nat} (h1 : 1 ≤ k) (h2 : k ≤ 10)
    (hb : ¬ wordInMemory (popSlot (s.reg .fp) k) s) : popState s = .error .addressOutOfRange := by
  have hsp : (s.setReg .sp (s.reg .fp)).reg .sp = popSlot (s.reg .fp) 0 := by simp
  by_cases hb1 : wordInMemory (popSlot (s.reg .fp) 1) s
  · have hp1 := pop_slot hsp hb1
    obtain ⟨s1, hs1⟩ : ∃ s1, s1 = (((s.setReg .sp (s.reg .fp)).setReg .sp (popSlot (s.reg .fp) (0 + 1))).setSfs
        ((s.setReg .sp (s.reg .fp)).sfs - 2)).setSfs (retMarker s) := ⟨_, rfl⟩
    have hsp1 : s1.reg .sp = popSlot (s.reg .fp) 1 := by simp [hs1]
    have hm1 : s1.mem = s.mem := by simp [hs1]
    have hunfold : popState s = (do
        let (ret, s2) ← pop s1
        let s3 ← popRegs savedRegs.reverse (s2.setReg .ip ret)
        let (n, s4) ← pop s3
        let s5 ← discard n.toNat s4
        .ok (s5.setReg .fp (s.reg .fp + retMarker s))) := by
      unfold popState
      dsimp only
      rw [hp1, hs1]
      rfl
    by_cases hb2 : wordInMemory (popSlot (s.reg .fp) 2) s
    · have hp2 := pop_slot (s := s1) hsp1 (by simpa [wordInMemory, hm1] using hb2)
      have hk1 : k ≠ 1 := fun e => hb (e ▸ hb1)
      have hk2 : k ≠ 2 := fun e => hb (e ▸ hb2)
      rw [hunfold, hp2]
      simp only [ok_bind]
      rw [popRegs_error savedRegs.reverse _ (by decide) (k := k - 2) (by omega)
        (by simp only [savedRegs, List.length_reverse, List.length_cons, List.length_nil]; omega)]
      · rfl
      · have : 2 + (k - 2) = k := by omega
        simpa [wordInMemory, popSlot_popSlot, hm1, this] using hb
    · rw [hunfold, pop_slot_error (s := s1) hsp1 (by simpa [wordInMemory, hm1] using hb2)]
      rfl
  · unfold popState
    dsimp only
    rw [pop_slot_error hsp hb1]
    rfl

/-- pop_state where a pop lies outside memory. -/
theorem popState_error (s : State) {k : Nat} (h1 : 1 ≤ k) (h2 : k ≤ 11 + (retCount s).toNat)
    (hb : ¬ wordInMemory (popSlot (s.reg .fp) k) s) : popState s = .error .addressOutOfRange := by
  by_cases hframe : ∀ j, 1 ≤ j → j ≤ 10 → wordInMemory (popSlot (s.reg .fp) j) s
  · obtain ⟨t, ht, hm, -, -, hsp, -, -, -⟩ := popState_frame s hframe
    rw [ht]
    by_cases hb11 : wordInMemory (popSlot (s.reg .fp) 11) s
    · have hk10 : ¬ k ≤ 10 := fun h => hb (hframe k h1 h)
      have hk11 : k ≠ 11 := fun e => hb (e ▸ hb11)
      have hpop := pop_slot (s := t) hsp (by simpa [wordInMemory, hm] using hb11)
      rw [hm] at hpop
      have hd := discard_error (retCount s).toNat ((t.setReg .sp (popSlot (s.reg .fp) 11)).setSfs (t.sfs - 2))
        (k := k - 11) (by omega) (by omega)
        (by
          have : 11 + (k - 11) = k := by omega
          simpa [wordInMemory, hm, popSlot_popSlot, this] using hb)
      have hcount : s.mem.wordAt (popSlot (s.reg .fp) (10 + 1)).toNat = retCount s := rfl
      rw [hpop]
      simp only [ok_bind]
      rw [hcount, hd]
      rfl
    · rw [pop_slot_error (s := t) hsp (by simpa [wordInMemory, hm] using hb11)]
      rfl
  · push Not at hframe
    obtain ⟨j, hj1, hj2, hj3⟩ := hframe
    exact popState_frame_error s hj1 hj2 hj3

end Sys2Proof.Machine
end

