-- ==== Sys2Proof/Laws/Exec.lean ====
section
/-! SUPPORT. What each meaning can do when it answers a next state, said once per instruction. -/

namespace Sys2Proof.Machine

/-! ### Whole frames -/

/-- push_state completes only when its ten words lie in memory; this is then all it does (R80). -/
theorem pushState_eq_ok {s t : State} (h : pushState s = .ok t) :
    (∀ k, k < 10 → wordInMemory (pushSlot (s.reg .sp) k) s) ∧
      t.mem = putWords s.mem (s.reg .sp) (frameWords s) ∧ t.sfs = 0 ∧ t.status = s.status ∧
      t.reg .sp = pushSlot (s.reg .sp) 10 ∧ t.reg .fp = pushSlot (s.reg .sp) 10 ∧
      ∀ q, q ≠ .sp → q ≠ .fp → t.reg q = s.reg q := by
  have hb : ∀ k, k < 10 → wordInMemory (pushSlot (s.reg .sp) k) s := by
    intro k hk
    by_contra hc
    rw [pushState_error s hk hc] at h
    cases h
  obtain ⟨u, hu, rest⟩ := pushState_ok s hb
  rw [hu] at h
  cases h
  exact ⟨hb, rest⟩

/-- pop_state completes only when its pops lie in memory; this is then all it does (R81). -/
theorem popState_eq_ok {s t : State} (h : popState s = .ok t) :
    (∀ k, 1 ≤ k → k ≤ 11 + (retCount s).toNat → wordInMemory (popSlot (s.reg .fp) k) s) ∧
      t.mem = s.mem ∧ t.status = s.status ∧
      t.sfs = retMarker s - 20 - BitVec.ofNat 16 (2 * (retCount s).toNat) ∧
      t.reg .sp = popSlot (s.reg .fp) (11 + (retCount s).toNat) ∧
      t.reg .fp = s.reg .fp + retMarker s ∧ t.reg .acc = s.reg .acc ∧
      t.reg .ip = s.mem.wordAt (popSlot (s.reg .fp) 2).toNat ∧
      ∀ k (hk : k < savedRegs.length), t.reg savedRegs[k] = s.mem.wordAt (popSlot (s.reg .fp) (10 - k)).toNat := by
  have hb : ∀ k, 1 ≤ k → k ≤ 11 + (retCount s).toNat → wordInMemory (popSlot (s.reg .fp) k) s := by
    intro k h1 h2
    by_contra hc
    rw [popState_error s h1 h2 hc] at h
    cases h
  obtain ⟨u, hu, rest⟩ := popState_ok s hb
  rw [hu] at h
  cases h
  exact ⟨hb, rest⟩

/-! ### One lemma per instruction -/

theorem execMovLitReg_next {v : Word} {reg : Byte} {s t : State} (h : execMovLitReg v reg s = .next t) :
    ∃ r, Reg.ofIndex reg = some r ∧ t = s.setReg r v := by
  simpa [execMovLitReg, writeIndex_eq_ok] using h

theorem execMovRegReg_next {src dst : Byte} {s t : State} (h : execMovRegReg src dst s = .next t) :
    ∃ q r, Reg.ofIndex src = some q ∧ Reg.ofIndex dst = some r ∧ t = s.setReg r (s.reg q) := by
  simp only [execMovRegReg, conclude_eq_next, bind_eq_ok, readIndex_eq_ok, writeIndex_eq_ok] at h
  obtain ⟨v, ⟨q, hq, rfl⟩, r, hr, rfl⟩ := h
  exact ⟨q, r, hq, hr, rfl⟩

theorem execMovRegMem_next {reg : Byte} {addr : Word} {s t : State} (h : execMovRegMem reg addr s = .next t) :
    ∃ r, Reg.ofIndex reg = some r ∧ addr.toNat + 1 < s.mem.len ∧
      t = s.setMem (s.mem.putWord addr.toNat (s.reg r)) := by
  simp only [execMovRegMem, conclude_eq_next, bind_eq_ok, readIndex_eq_ok] at h
  obtain ⟨v, ⟨r, hr, rfl⟩, hw⟩ := h
  exact ⟨r, hr, writeU16_eq_ok hw⟩

theorem execMovMemReg_next {addr : Word} {reg : Byte} {s t : State} (h : execMovMemReg addr reg s = .next t) :
    ∃ r, Reg.ofIndex reg = some r ∧ addr.toNat + 1 < s.mem.len ∧ t = s.setReg r (s.mem.wordAt addr.toNat) := by
  simp only [execMovMemReg, conclude_eq_next, bind_eq_ok, writeIndex_eq_ok] at h
  obtain ⟨v, hv, r, hr, rfl⟩ := h
  unfold readU16 at hv
  split at hv
  · cases hv
  · cases hv
    exact ⟨r, hr, by omega, rfl⟩

theorem execAddRegReg_next {a b : Byte} {s t : State} (h : execAddRegReg a b s = .next t) :
    ∃ q r, Reg.ofIndex a = some q ∧ Reg.ofIndex b = some r ∧ t = s.setReg .acc (add16 (s.reg q) (s.reg r)) := by
  simp only [execAddRegReg, conclude_eq_next, bind_eq_ok, readIndex_eq_ok] at h
  obtain ⟨v, ⟨q, hq, rfl⟩, w, ⟨r, hr, rfl⟩, ht⟩ := h
  exact ⟨q, r, hq, hr, by simpa using ht.symm⟩

theorem execJmpNotEq_next {v addr : Word} {s t : State} (h : execJmpNotEq v addr s = .next t) :
    t = if v ≠ s.reg .acc then s.setReg .ip addr else s := by
  simp only [execJmpNotEq, conclude_ok, Host.Outcome.next.injEq, branchTaken, bne_iff_ne] at h
  exact h.symm

theorem execPshLit_next {v : Word} {s t : State} (h : execPshLit v s = .next t) : push v s = .ok t := by
  simpa [execPshLit] using h

theorem execPshReg_next {reg : Byte} {s t : State} (h : execPshReg reg s = .next t) :
    ∃ r, Reg.ofIndex reg = some r ∧ push (s.reg r) s = .ok t := by
  simp only [execPshReg, conclude_eq_next, bind_eq_ok, readIndex_eq_ok] at h
  obtain ⟨v, ⟨r, hr, rfl⟩, ht⟩ := h
  exact ⟨r, hr, ht⟩

theorem execPop_next {reg : Byte} {s t : State} (h : execPop reg s = .next t) :
    ∃ r, Reg.ofIndex reg = some r ∧ (s.reg .sp + 2).toNat + 1 < s.mem.len ∧
      t = ((s.setReg .sp (s.reg .sp + 2)).setSfs (s.sfs - 2)).setReg r (s.mem.wordAt (s.reg .sp + 2).toNat) := by
  simp only [execPop, conclude_eq_next, bind_eq_ok, writeIndex_eq_ok] at h
  obtain ⟨⟨v, u⟩, hp, r, hr, rfl⟩ := h
  obtain ⟨hb, rfl, rfl⟩ := pop_eq_ok hp
  exact ⟨r, hr, hb, rfl⟩

theorem execCalLit_next {addr : Word} {s t : State} (h : execCalLit addr s = .next t) :
    ∃ u, pushState s = .ok u ∧ t = u.setReg .ip addr := by
  simp only [execCalLit, conclude_eq_next, bind_eq_ok] at h
  obtain ⟨u, hu, ht⟩ := h
  exact ⟨u, hu, by simpa using ht.symm⟩

theorem execCalReg_next {reg : Byte} {s t : State} (h : execCalReg reg s = .next t) :
    ∃ r u, Reg.ofIndex reg = some r ∧ pushState s = .ok u ∧ t = u.setReg .ip (s.reg r) := by
  simp only [execCalReg, conclude_eq_next, bind_eq_ok, readIndex_eq_ok] at h
  obtain ⟨v, ⟨r, hr, rfl⟩, u, hu, ht⟩ := h
  exact ⟨r, u, hr, hu, by simpa using ht.symm⟩

theorem execRet_next {s t : State} (h : execRet s = .next t) : popState s = .ok t := by
  simpa [execRet] using h

theorem execHalt_next {s t : State} (h : execHalt s = .next t) : t = s.setStatus .halted := by
  simpa [execHalt, eq_comm] using h

/-! ### A step -/

/-- A step of a running machine is its fetch and then the meaning of what was fetched (R60). -/
theorem step_running {s : State} (h : s.status = .running) :
    step s = match fetchInstr s with
      | .error k => .fault k
      | .ok (i, s1) => exec i s1 := by
  obtain ⟨m, f, x, u⟩ := s
  cases h
  rfl

/-- What a step that answers a next state has done: nothing in Halted; in Running, fetched and run an instruction. -/
theorem step_next {s t : State} (h : step s = .next t) :
    (s.status = .halted ∧ t = s) ∨ (s.status = .running ∧ ∃ i u, fetchInstr s = .ok (i, u) ∧ exec i u = .next t) := by
  unfold step at h
  split at h
  · exact .inl ⟨by assumption, by simpa using h.symm⟩
  · cases h
  · right
    refine ⟨by assumption, ?_⟩
    split at h
    · cases h
    · exact ⟨_, _, by assumption, h⟩

/-! ### Runs -/

theorem run_zero (s : State) : run 0 s = .next s := rfl

/-- A run of `n + 1` steps is one step and then `n` more (R65). -/
theorem run_succ (n : Nat) (s : State) :
    run (n + 1) s = match step s with
      | .next t => run n t
      | .fault k => .fault k
      | .refused r => .refused r := by
  have e : Sys2Proof.core.step s = step s := rfl
  simp only [run, Host.Core.run]
  rw [e]
  cases step s <;> rfl

end Sys2Proof.Machine
end

