-- ==== Sys2Proof/Laws/PerInstr.lean ====
section
/-! SUPPORT. Statements for all instructions, one lemma per constructor of Instr. -/

namespace Sys2Proof.Laws.EncodingLayout

/-- The encoding starts with the opcode byte of the instruction's row, has the length that the row fixes, and is a
well-formed sequence of bytes (R48, R52). -/
def Statement (i : Instr) : Prop :=
  (encode i).head? = some i.opcode.byte ∧ (encode i).length = i.opcode.length ∧ wellFormedBytes (encode i) = true

theorem movLitReg (literal : Word) (reg : Byte) : Statement (.movLitReg literal reg) := ⟨rfl, rfl, rfl⟩
theorem movRegReg (src dst : Byte) : Statement (.movRegReg src dst) := ⟨rfl, rfl, rfl⟩
theorem movRegMem (reg : Byte) (addr : Word) : Statement (.movRegMem reg addr) := ⟨rfl, rfl, rfl⟩
theorem movMemReg (addr : Word) (reg : Byte) : Statement (.movMemReg addr reg) := ⟨rfl, rfl, rfl⟩
theorem addRegReg (a b : Byte) : Statement (.addRegReg a b) := ⟨rfl, rfl, rfl⟩
theorem jmpNotEq (literal addr : Word) : Statement (.jmpNotEq literal addr) := ⟨rfl, rfl, rfl⟩
theorem pshLit (literal : Word) : Statement (.pshLit literal) := ⟨rfl, rfl, rfl⟩
theorem pshReg (reg : Byte) : Statement (.pshReg reg) := ⟨rfl, rfl, rfl⟩
theorem pop (reg : Byte) : Statement (.pop reg) := ⟨rfl, rfl, rfl⟩
theorem calLit (addr : Word) : Statement (.calLit addr) := ⟨rfl, rfl, rfl⟩
theorem calReg (reg : Byte) : Statement (.calReg reg) := ⟨rfl, rfl, rfl⟩
theorem ret : Statement .ret := ⟨rfl, rfl, rfl⟩
theorem halt : Statement .halt := ⟨rfl, rfl, rfl⟩

end Sys2Proof.Laws.EncodingLayout
end

