-- ==== Sys2Proof/Laws/Transactions.lean ====
section
/-! SUPPORT. What LOAD can do (spec/70_reset_and_hazards.md R103). -/

namespace Sys2Proof.Machine

@[simp] theorem enterFaulted_running {s : State} (k : Fault) (h : s.status = .running) :
    enterFaulted k s = s.setStatus (.faulted k) := by
  obtain ⟨m, f, x, u⟩ := s
  cases h
  rfl

/-- A terminal status is not left (R64, R95). -/
@[simp] theorem enterFaulted_terminal {s : State} (k : Fault) (h : s.status ≠ .running) : enterFaulted k s = s := by
  unfold enterFaulted
  split
  · exact absurd (by assumption) h
  · rfl
  · rfl

theorem load_installed {offset : Word} {bytes : List Byte} {s : State} (h : offset.toNat + bytes.length ≤ s.mem.len) :
    load offset bytes s = (s.setMem (s.mem.putBytes offset.toNat bytes), .installed) :=
  if_neg (Nat.not_lt.mpr h)

theorem load_error {offset : Word} {bytes : List Byte} {s : State} (h : s.mem.len < offset.toNat + bytes.length) :
    load offset bytes s = (enterFaulted .addressOutOfRange s, .error .addressOutOfRange) :=
  if_pos h

end Sys2Proof.Machine
end

