-- ==== Sys2Proof/Tests/Slice0.lean ====
section
/-! SUPPORT. Tests: ill-formed terms refused, words written out from the encoding, one step of each instruction, and a
witness for the hypotheses of every obligation that has some. The expected values are those of spec/95_test_vectors.md,
whose row each test names, or are worked by hand from the rule named. -/

namespace Sys2Proof.Tests

open Sys2Proof.Machine

/-! ### Helpers -/

/-- The state after CONSTRUCT with a memory of `len` bytes that starts with the bytes given and is zero after them. -/
def demoLen (len : Nat) (bytes : List Byte) : State :=
  { mem := Memory.ofBytes len bytes, regs := RegFile.initial len, sfs := 0, status := .running }

/-- The same with the length of the test vectors. -/
def demo (bytes : List Byte) : State := demoLen 256 bytes

/-- Some registers set. -/
def setRegs (s : State) : List (Reg × Word) → State
  | [] => s
  | (r, v) :: rest => setRegs (s.setReg r v) rest

def nextOf : Host.Outcome State Fault Refusal → Option State
  | .next s => some s
  | .fault _ => none
  | .refused _ => none

def faultOf : Host.Outcome State Fault Refusal → Option Fault
  | .next _ => none
  | .fault k => some k
  | .refused _ => none

/-- Some registers of the state after one step, then `sfs`. -/
def after (s : State) (rs : List Reg) : Option (List Word × Word) :=
  (nextOf (step s)).map fun t => (rs.map t.reg, t.sfs)

/-- Some bytes of memory after one step. -/
def memAfter (s : State) (a n : Nat) : Option (List Byte) := (nextOf (step s)).map fun t => t.mem.bytesFrom a n

/-- The state after an instruction, for the witnesses. -/
def execD (i : Instr) (s : State) : State := (nextOf (exec i s)).getD s

/-! ### WellFormed refuses ill-formed terms -/

theorem test_wellFormedBytes_empty : wellFormedBytes [] = false := by decide
theorem test_wellFormedBytes_illegal_opcode : wellFormedBytes [0x16, 0x00] = false := by decide
theorem test_wellFormedBytes_truncated : wellFormedBytes [0x10, 0x12, 0x34] = false := by decide
theorem test_wellFormedBytes_overlong : wellFormedBytes [0x60, 0x00] = false := by decide
theorem test_wellFormedBytes_ok : wellFormedBytes [0x10, 0x12, 0x34, 0xFF] = true := by decide
theorem test_regsInFile_twelve : (Instr.movRegReg 11 12).regsInFile = false := by decide
theorem test_regsInFile_eleven : (Instr.movRegReg 11 0).regsInFile = true := by decide

/-! ### Decoding: words written out bit by bit from R49 and R52 -/

theorem test_decode_movLitReg :
    decode [0b00010000, 0b00010010, 0b00110100, 0b00000010] = .ok (.movLitReg 0x1234 2, []) := by rfl
theorem test_decode_movRegReg : decode [0b00010001, 0b00000010, 0b00000011] = .ok (.movRegReg 2 3, []) := by rfl
theorem test_decode_movRegMem :
    decode [0b00010010, 0b00000001, 0b00000000, 0b10000000] = .ok (.movRegMem 1 0x0080, []) := by rfl
theorem test_decode_movMemReg :
    decode [0b00010011, 0b00000000, 0b10000001, 0b00000011] = .ok (.movMemReg 0x0081 3, []) := by rfl
theorem test_decode_addRegReg : decode [0b00010100, 0b00000010, 0b00000011] = .ok (.addRegReg 2 3, []) := by rfl
theorem test_decode_jmpNotEq :
    decode [0b00010101, 0b00000000, 0b00000101, 0b00010010, 0b00110100] = .ok (.jmpNotEq 0x0005 0x1234, []) := by rfl
theorem test_decode_pshLit : decode [0b00010111, 0b00110011, 0b01000100] = .ok (.pshLit 0x3344, []) := by rfl
theorem test_decode_pshReg : decode [0b00011000, 0b00001010] = .ok (.pshReg 10, []) := by rfl
theorem test_decode_pop : decode [0b00011010, 0b00000100] = .ok (.pop 4, []) := by rfl
theorem test_decode_calLit : decode [0b01011110, 0b00000001, 0b01000000] = .ok (.calLit 0x0140, []) := by rfl
theorem test_decode_calReg : decode [0b01011111, 0b00000110] = .ok (.calReg 6, []) := by rfl
theorem test_decode_ret : decode [0b01100000, 0xAA] = .ok (.ret, [0xAA]) := by rfl
theorem test_decode_halt : decode [0b11111111] = .ok (.halt, []) := by rfl
theorem test_decode_gap : decode [0x19, 0x00] = .error (.unknownOpcode 0x19) := by rfl
theorem test_decode_truncated : decode [0x15, 0x00, 0x05, 0x12] = .error (.truncated .jmpNotEq) := by rfl

/-- The table's number has its first byte on top (R49). -/
theorem test_decodeTableWord : decodeTableWord 32 0x10123402 = some (.movLitReg 0x1234 2) := by decide
theorem test_decodeTableWord_illegal : decodeTableWord 8 0x16 = none := by decide
theorem test_withFetchWord :
    (nextOf (step (State.reset.withFetchWord 32 0x10123402))).map (fun t => (t.reg .r1, t.reg .ip)) =
      some (0x1234, 4) := by decide

/-! ### One step of each instruction -/

/-- V-MOV-1. -/
theorem test_movLitReg : after (demo [0x10, 0x12, 0x34, 0x02]) [.r1, .ip] = some ([0x1234, 4], 0) := by decide
/-- V-MOV-2: a destination IP replaces the advanced IP. -/
theorem test_movLitReg_ip : after (demo [0x10, 0x00, 0x05, 0x00]) [.ip] = some ([5], 0) := by decide
/-- R67. -/
theorem test_movRegReg :
    after (setRegs (demo [0x11, 0x02, 0x03]) [(.r1, 0xBEEF)]) [.r1, .r2, .ip] = some ([0xBEEF, 0xBEEF, 3], 0) := by
  decide
/-- V-MOV-4: IP as a source is the address after the instruction. -/
theorem test_movRegReg_ip : after (demo [0x11, 0x00, 0x02]) [.r1, .ip] = some ([3, 3], 0) := by decide
/-- V-MOV-8, V-MOV-9: the last whole word, and one byte further. -/
theorem test_movRegMem :
    memAfter (setRegs (demo [0x12, 0x01, 0x00, 0xFE]) [(.acc, 0xABCD)]) 0xFE 2 = some [0xAB, 0xCD] := by decide
theorem test_movRegMem_end : faultOf (step (demo [0x12, 0x01, 0x00, 0xFF])) = some .addressOutOfRange := by decide
/-- R69, at an odd address: the bytes at 1 and 2 are 0x00 and 0x01. -/
theorem test_movMemReg : after (demo [0x13, 0x00, 0x01, 0x02]) [.r1, .ip] = some ([0x0001, 4], 0) := by decide
/-- S8. -/
theorem test_movMemReg_end : faultOf (step (demo [0x13, 0x01, 0x00, 0x02])) = some .addressOutOfRange := by decide
/-- S4. -/
theorem test_addRegReg_wraps :
    after (setRegs (demo [0x14, 0x02, 0x03]) [(.r1, 0xFFFF), (.r2, 2)]) [.acc, .r1, .r2] =
      some ([1, 0xFFFF, 2], 0) := by decide
/-- V-ALU-3. -/
theorem test_addRegReg_acc : after (setRegs (demo [0x14, 0x01, 0x01]) [(.acc, 3)]) [.acc] = some ([6], 0) := by decide
/-- S5, taken and not taken. -/
theorem test_jmpNotEq_taken :
    after (setRegs (demo [0x15, 0x00, 0x05, 0x00, 0x0A]) [(.acc, 3)]) [.ip, .acc] = some ([0x0A, 3], 0) := by decide
theorem test_jmpNotEq_not_taken :
    after (setRegs (demo [0x15, 0x00, 0x05, 0x00, 0x0A]) [(.acc, 5)]) [.ip, .acc] = some ([5, 5], 0) := by decide
/-- R76. -/
theorem test_pshLit : after (demo [0x17, 0x12, 0x34]) [.sp, .fp, .ip] = some ([0xFC, 0xFE, 3], 2) := by decide
theorem test_pshLit_mem : memAfter (demo [0x17, 0x12, 0x34]) 0xFD 3 = some [0x00, 0x12, 0x34] := by decide
/-- V-STK-3: SP pushes its old value. -/
theorem test_pshReg_sp : memAfter (demo [0x18, 0x0A]) 0xFE 2 = some [0x00, 0xFE] := by decide
/-- V-STK-9: a push at SP = 0 wraps SP. -/
theorem test_pshReg_wraps : after (setRegs (demo [0x18, 0x02]) [(.sp, 0)]) [.sp] = some ([0xFFFE], 2) := by decide
/-- R78, over the bytes at 2 and 3; `sfs` goes to -2. -/
theorem test_pop :
    after (setRegs (demo [0x1A, 0x04, 0x12, 0x34]) [(.sp, 0)]) [.r3, .sp, .ip] = some ([0x1234, 2, 2], 0xFFFE) := by
  decide
/-- V-STK-5: a destination SP replaces the incremented SP. -/
theorem test_pop_sp : after (setRegs (demo [0x1A, 0x0A, 0x12, 0x34]) [(.sp, 0)]) [.sp] = some ([0x1234], 0xFFFE) := by
  decide
/-- V-CALL-2: the frame's last two words are the return address and the marker. -/
theorem test_calLit : after (demo [0x5E, 0x00, 0x40]) [.sp, .fp, .ip] = some ([0xEA, 0xEA, 0x40], 0) := by decide
theorem test_calLit_mem : memAfter (demo [0x5E, 0x00, 0x40]) 0xEC 4 = some [0x00, 0x14, 0x00, 0x03] := by decide
/-- V-CALL-7: the target is read before the frame is pushed. -/
theorem test_calReg_sp :
    after (setRegs (demo [0x5F, 0x0A]) [(.sp, 0xFC)]) [.sp, .fp, .ip] = some ([0xE8, 0xE8, 0xFC], 0) := by decide
/-- V-CALL-8. -/
theorem test_calReg_index : faultOf (step (demo [0x5F, 0x0C])) = some .addressOutOfRange := by decide

/-- A frame at 2..23 (FP = 0): the marker 0x0016, the return address 0x0030, R8 = 8 down to R1 = 1, one argument. -/
def frame : State :=
  setRegs
    (demo [0x60, 0x00, 0x00, 0x16, 0x00, 0x30, 0x00, 0x08, 0x00, 0x07, 0x00, 0x06, 0x00, 0x05, 0x00, 0x04, 0x00, 0x03,
      0x00, 0x02, 0x00, 0x01, 0x00, 0x01, 0xAA, 0xAA])
    [(.fp, 0), (.acc, 9)]

/-- R81, worked by hand: SP = 0 + 22 + 2, FP = 0 + 0x16, `sfs` = 0x16 - 20 - 2. -/
theorem test_ret :
    after frame [.ip, .r8, .r7, .r2, .r1, .sp, .fp, .acc] = some ([0x30, 8, 7, 2, 1, 24, 0x16, 9], 0) := by decide
/-- V-CALL-1. -/
theorem test_ret_without_call : faultOf (step (demo [0x60])) = some .addressOutOfRange := by decide
/-- V-FD-1. -/
theorem test_halt :
    (nextOf (step (demo [0xFF]))).map (fun t => (t.reg .ip, t.status)) = some (1, .halted) := by decide

/-! ### Fetch faults, host transactions -/

/-- V-FD-3. -/
theorem test_unknown_opcode : faultOf (step (demo [0x16])) = some .unknownOpcode := by decide
/-- V-FD-7. -/
theorem test_truncated_fetch : faultOf (step (demoLen 3 [0x10, 0x00, 0x00])) = some .addressOutOfRange := by decide
/-- V-MEM-4. -/
theorem test_construct_refused : construct 1 [0] = none := by decide
/-- V-MEM-1, V-MEM-2, V-MEM-3. -/
theorem test_load_last :
    (load 0xFF [0xAA] (demo [])).1.mem.byteAt 0xFF = 0xAA ∧ (load 0xFF [0xAA] (demo [])).2 = .installed := by decide
theorem test_load_past_end :
    load 0xFF [0xAA, 0xBB] (demo []) =
      ((demo []).setStatus (.faulted .addressOutOfRange), .error .addressOutOfRange) := by decide
theorem test_load_empty : load 0x100 [] (demo []) = (demo [], .installed) := by decide
/-- R103: the error is reported again, and a second LOAD that fits is reported as such. -/
theorem test_load_after_failure :
    (load 0xFF [0xAA, 0xBB] (load 0xFF [0xAA, 0xBB] (demo [])).1).2 = .error .addressOutOfRange ∧
      (load 0xFF [0xAA] (load 0xFF [0xAA, 0xBB] (demo [])).1).2 = .installed := by decide
/-- R64: no transaction leaves Halted. -/
theorem test_load_halted :
    (load 0xFF [0xAA, 0xBB] ((demo []).setStatus .halted)).1.status = .halted := by decide
/-- V-MEM-8, V-MEM-9. -/
theorem test_word_at_top : readU16 0xFFFF State.reset = .error .addressOutOfRange := by rfl
theorem test_last_word : readU16 0xFFFD State.reset = .ok 0 := by rfl
/-- R86 (D9). -/
theorem test_fault_codes : faultCode .addressOutOfRange = 1 ∧ faultCode .unknownOpcode = 2 := by decide

/-! ### Witnesses: the hypotheses of each obligation can be met, at the boundaries of each clause -/

theorem inMemory_of_lt {a : Word} {s : State} (h : a.toNat + 1 < s.mem.len) : wordInMemory a s := h

/-- The bytes stand at IP and end where memory ends. -/
abbrev fits (bytes : List Byte) : Prop :=
  Config.memLenOk ((demoLen (bytes.length + 1) (0 :: bytes)).setReg .ip 1).mem.len ∧
    ((demoLen (bytes.length + 1) (0 :: bytes)).setReg .ip 1).status = .running ∧
    (((demoLen (bytes.length + 1) (0 :: bytes)).setReg .ip 1).reg .ip).toNat + bytes.length ≤
      ((demoLen (bytes.length + 1) (0 :: bytes)).setReg .ip 1).mem.len ∧
    ((demoLen (bytes.length + 1) (0 :: bytes)).setReg .ip 1).mem.bytesFrom 1 bytes.length = bytes

/-- The bytes stand at IP but for the last one, which memory no longer has. -/
abbrev cutOff (bytes : List Byte) : Prop :=
  Config.memLenOk (demoLen (bytes.length - 1) (bytes.take (bytes.length - 1))).mem.len ∧
    (demoLen (bytes.length - 1) (bytes.take (bytes.length - 1))).status = .running ∧
    ((demoLen (bytes.length - 1) (bytes.take (bytes.length - 1))).reg .ip).toNat <
      (demoLen (bytes.length - 1) (bytes.take (bytes.length - 1))).mem.len ∧
    bytes.head? = some ((demoLen (bytes.length - 1) (bytes.take (bytes.length - 1))).mem.byteAt 0) ∧
    (demoLen (bytes.length - 1) (bytes.take (bytes.length - 1))).mem.len <
      ((demoLen (bytes.length - 1) (bytes.take (bytes.length - 1))).reg .ip).toNat + bytes.length

/-- The hypotheses of the `fetchesAs` clauses of MovLitRegResult, MovRegRegResult, MovRegMemStoresTheWord,
MovMemRegResult, AddRegRegWrapsIntoAcc, JmpNotEqResult and HaltResult, in this order. A HALT of one byte is never cut
off. -/
theorem witness_fetchesAs :
    (fits [0x10, 0x12, 0x34, 0x0B] ∧ cutOff [0x10, 0x12, 0x34, 0x0B]) ∧
    (fits [0x11, 0x00, 0x0B] ∧ cutOff [0x11, 0x00, 0x0B]) ∧
    (fits [0x12, 0x0B, 0x00, 0x01] ∧ cutOff [0x12, 0x0B, 0x00, 0x01]) ∧
    (fits [0x13, 0x00, 0x01, 0x0B] ∧ cutOff [0x13, 0x00, 0x01, 0x0B]) ∧
    (fits [0x14, 0x01, 0x0B] ∧ cutOff [0x14, 0x01, 0x0B]) ∧
    (fits [0x15, 0x00, 0x05, 0x00, 0x0A] ∧ cutOff [0x15, 0x00, 0x05, 0x00, 0x0A]) ∧
    fits [0xFF] := by
  refine ⟨⟨?_, ?_⟩, ⟨?_, ?_⟩, ⟨?_, ?_⟩, ⟨?_, ?_⟩, ⟨?_, ?_⟩, ⟨?_, ?_⟩, ?_⟩ <;> decide

theorem witness_DecodedBytesAreTheEncoding : decode [0x60, 0xAA] = .ok (.ret, [0xAA]) := by rfl

theorem witness_OpcodeMapIsTheTable :
    (0x16 : Byte) ∉
      ([0x10, 0x11, 0x12, 0x13, 0x14, 0x15, 0x17, 0x18, 0x1A, 0x5E, 0x5F, 0x60, 0xFF] : List Byte) := by decide

theorem witness_StepRunsTheDecodedInstruction :
    Config.memLenOk (demoLen 4 [0x10, 0x12, 0x34, 0x02]).mem.len ∧
      (demoLen 4 [0x10, 0x12, 0x34, 0x02]).status = .running ∧
      ((demoLen 4 [0x10, 0x12, 0x34, 0x02]).reg .ip).toNat + (Instr.movLitReg 0x1234 2).length ≤
        (demoLen 4 [0x10, 0x12, 0x34, 0x02]).mem.len ∧
      decode ((demoLen 4 [0x10, 0x12, 0x34, 0x02]).mem.bytesFrom 0 (Instr.movLitReg 0x1234 2).length) =
        .ok (.movLitReg 0x1234 2, []) := ⟨by decide, by decide, by decide, by rfl⟩

theorem witness_FetchPrimitivesReadAtIp :
    (255 : Word).toNat < (demo []).mem.len ∧ (demo []).mem.len ≤ (256 : Word).toNat ∧
      (254 : Word).toNat + 1 < (demo []).mem.len ∧ (demo []).mem.len ≤ (255 : Word).toNat + 1 := by decide

theorem witness_TruncatedInstructionFaults :
    Config.memLenOk (demoLen 3 [0x10]).mem.len ∧ (demoLen 3 [0x10]).status = .running ∧
      (demoLen 3 [0x10]).mem.len ≤ (((demoLen 3 [0x10]).setReg .ip 3).reg .ip).toNat ∧
      ((demoLen 3 [0x10]).reg .ip).toNat < (demoLen 3 [0x10]).mem.len ∧
      (demoLen 3 [0x10]).mem.byteAt 0 = Opcode.movLitReg.byte ∧
      (demoLen 3 [0x10]).mem.len < ((demoLen 3 [0x10]).reg .ip).toNat + Opcode.movLitReg.length := by decide

/-- Both sides of the equivalence occur. -/
theorem witness_UnknownOpcodeExactlyOnIllegalBytes :
    (Config.memLenOk (demo [0x16]).mem.len ∧ (demo [0x16]).status = .running ∧
      faultOf (step (demo [0x16])) = some .unknownOpcode) ∧
    (Config.memLenOk (demo [0x15]).mem.len ∧ (demo [0x15]).status = .running ∧
      faultOf (step (demo [0x15])) = none) := by decide

theorem witness_StepOutsideRunningDoesNothing :
    ((demo []).setStatus .halted).status = .halted ∧
      ((demo []).setStatus (.faulted .unknownOpcode)).status = .faulted .unknownOpcode := by decide

theorem witness_FetchNeverWrapsIp :
    Config.memLenOk (demoLen 65535 [0xFF]).mem.len ∧
      fetchInstr (demoLen 65535 [0xFF]) = .ok (.halt, (demoLen 65535 [0xFF]).setReg .ip 1) := ⟨by decide, by rfl⟩

theorem witness_StepKeepsInvariant :
    (demo [0xFF]).Inv ∧ step (demo [0xFF]) = .next (((demo [0xFF]).setReg .ip 1).setStatus .halted) :=
  ⟨⟨by decide, by decide⟩, by rfl⟩

theorem witness_StepNeverResizesMemory :
    step (demo [0xFF]) = .next (((demo [0xFF]).setReg .ip 1).setStatus .halted) := by rfl

/-- The HALT is the last byte of the shortest memory. -/
theorem witness_HaltedOnlyByHaltAndTerminal :
    (((demoLen 2 [0x00, 0xFF]).setReg .ip 1).status = .running ∧
      (((demoLen 2 [0x00, 0xFF]).setReg .ip 1).reg .ip).toNat < (demoLen 2 [0x00, 0xFF]).mem.len ∧
      (demoLen 2 [0x00, 0xFF]).mem.byteAt 1 = 0xFF) ∧
    ((demo [0xFF]).status ≠ .halted ∧
      step (demo [0xFF]) = .next (((demo [0xFF]).setReg .ip 1).setStatus .halted) ∧
      (((demo [0xFF]).setReg .ip 1).setStatus .halted).status = .halted) := ⟨by decide, by decide, by rfl, by rfl⟩

/-- Index 11 is the last of the file and 12 the first outside it. -/
theorem witness_indices :
    Reg.ofIndex 0 = some .ip ∧ Reg.ofIndex 10 = some .sp ∧ Reg.ofIndex 11 = some .fp ∧ (11 : Byte).toNat < 12 ∧
      12 ≤ (12 : Byte).toNat := by decide

theorem witness_RegisterIndexTable : 12 ≤ (12 : Byte).toNat := by decide

theorem witness_RegisterPortReadsAndWrites :
    12 ≤ (12 : Byte).toNat ∧ Reg.ofIndex 11 = some .fp ∧ (11 : Byte).toNat < 12 ∧ (10 : Byte) ≠ 11 := by decide

theorem witness_ByteAccessesAreBoundsChecked :
    (demo [1]).mem.len ≤ (256 : Word).toNat ∧ (255 : Word).toNat < (demo [1]).mem.len ∧ (demo [1]).mem.wf = true := by
  decide

theorem witness_WordAccessesAreBigEndianAndChecked :
    (demo [1]).mem.len ≤ (255 : Word).toNat + 1 ∧ (254 : Word).toNat + 1 < (demo [1]).mem.len ∧
      (demo [1]).mem.wf = true := by decide

theorem witness_OverlappingWordsShareTheirByte :
    (demo []).Inv ∧ ∃ s1 s2, writeU16 253 0x1122 (demo []) = .ok s1 ∧ writeU16 (253 + 1) 0x3344 s1 = .ok s2 :=
  ⟨⟨by decide, by decide⟩, _, _, rfl, rfl⟩

/-- Two orders of writing. -/
theorem witness_CanonicalMemoriesAreEqual :
    (Memory.ofBytes 4 [1, 0, 2]).wf = true ∧ (((⟨4, []⟩ : Memory).putByte 2 2).putByte 0 1).wf = true ∧
      (Memory.ofBytes 4 [1, 0, 2]).len = (((⟨4, []⟩ : Memory).putByte 2 2).putByte 0 1).len ∧
      ∀ a, (Memory.ofBytes 4 [1, 0, 2]).byteAt a = (((⟨4, []⟩ : Memory).putByte 2 2).putByte 0 1).byteAt a :=
  ⟨by decide, by decide, by decide, fun _ => by rfl⟩

/-- The last whole word of memory. -/
theorem witness_StoreIsSeenByFetch :
    ((demo []).setReg .ip 254).mem.wf = true ∧
      ∃ t, writeU16 254 0x1234 ((demo []).setReg .ip 254) = .ok t ∧ t.reg .ip = 254 := ⟨by decide, _, rfl, rfl⟩

theorem witness_MovLitRegResult : Reg.ofIndex 11 = some .fp ∧ 12 ≤ (12 : Byte).toNat := by decide

theorem witness_MovRegRegResult :
    Reg.ofIndex 0 = some .ip ∧ Reg.ofIndex 11 = some .fp ∧ 12 ≤ (12 : Byte).toNat := by decide

theorem witness_MovRegMemStoresTheWord :
    (demo []).mem.wf = true ∧ Reg.ofIndex 11 = some .fp ∧ (254 : Word).toNat + 1 < (demo []).mem.len ∧
      12 ≤ (12 : Byte).toNat ∧ (demo []).mem.len ≤ (255 : Word).toNat + 1 := by decide

theorem witness_MovMemRegResult :
    Reg.ofIndex 11 = some .fp ∧ (254 : Word).toNat + 1 < (demo []).mem.len ∧ 12 ≤ (12 : Byte).toNat ∧
      (demo []).mem.len ≤ (255 : Word).toNat + 1 := by decide

theorem witness_AddRegRegWrapsIntoAcc :
    Reg.ofIndex 1 = some .acc ∧ Reg.ofIndex 11 = some .fp ∧ 12 ≤ (12 : Byte).toNat := by decide

theorem witness_JmpNotEqResult :
    (5 : Word) ≠ (demo []).reg .acc ∧ 0 = (demo []).reg .acc ∧ (demo []).status = .running ∧
      (demo []).mem.len ≤ (256 : Word).toNat := by decide

/-- A stack whose next word is 0x0100, the first address outside memory, in every place a jump reads its target from. -/
def badTarget : State :=
  setRegs (demo [0xFF, 0xFF, 0x01, 0x00, 0x01, 0x00]) [(.sp, 0), (.fp, 0), (.r1, 256)]

/-- One state for every clause but those of the calls, whose frame needs a higher SP. -/
theorem witness_BadTargetFaultsAtNextFetch :
    badTarget.status = .running ∧ badTarget.mem.len ≤ (256 : Word).toNat ∧ (5 : Word) ≠ badTarget.reg .acc ∧
      Reg.ofIndex 2 = some .r1 ∧ badTarget.reg .r1 = 256 ∧
      ((2 : Word).toNat + 1 < badTarget.mem.len ∧ badTarget.mem.wordAt (2 : Word).toNat = 256) ∧
      ((badTarget.reg .sp + 2).toNat + 1 < badTarget.mem.len ∧
        badTarget.mem.wordAt (badTarget.reg .sp + 2).toNat = 256) ∧
      badTarget.mem.wordAt (popSlot (badTarget.reg .fp) 2).toNat = 256 := by
  refine ⟨?_, ?_, ?_, ?_, ?_, ⟨?_, ?_⟩, ⟨?_, ?_⟩, ?_⟩ <;> decide

/-- The calls' clauses: every push in memory, the last at address 0. -/
theorem witness_BadTargetFaultsAtNextFetch_calls :
    (setRegs (demo []) [(.sp, 18), (.r1, 256)]).status = .running ∧
      (setRegs (demo []) [(.sp, 18), (.r1, 256)]).mem.len ≤ (256 : Word).toNat ∧
      (setRegs (demo []) [(.sp, 18), (.r1, 256)]).reg .r1 = 256 ∧
      callInMemory (setRegs (demo []) [(.sp, 18), (.r1, 256)]) := by
  refine ⟨by decide, by decide, by decide, fun k hk => inMemory_of_lt ?_⟩
  revert k
  decide

/-- RET's clause: every pop in memory, the count 0. -/
theorem witness_BadTargetFaultsAtNextFetch_ret : retCount badTarget = 0 ∧ retInMemory badTarget := by
  have h : retCount badTarget = 0 := by decide
  refine ⟨h, fun k _ hk => inMemory_of_lt ?_⟩
  rw [h] at hk
  have hk : k < 12 := by simp at hk; omega
  clear h
  revert k
  decide

/-- The bytes of a clause of SourceIpIsTheNextAddress at address 0 of a memory with the invariant. -/
abbrev atZero (bytes : List Byte) : Prop :=
  (demo bytes).status = .running ∧ ((demo bytes).reg .ip).toNat + bytes.length ≤ (demo bytes).mem.len ∧
    (demo bytes).mem.bytesFrom 0 bytes.length = bytes

/-- Each clause; the store goes to the last whole word, and FP (index 11) and IP itself are the other operands. -/
theorem witness_SourceIpIsTheNextAddress :
    (demo [0x5F, 0x00]).Inv ∧ atZero [0x11, 0x00, 0x0B] ∧ Reg.ofIndex 0x0B = some .fp ∧
      (atZero [0x12, 0x00, hiByte 254, loByte 254] ∧ (254 : Word).toNat + 1 < (demo []).mem.len) ∧
      atZero [0x14, 0x00, 0x0B] ∧ atZero [0x14, 0x0B, 0x00] ∧ atZero [0x14, 0x00, 0x00] ∧
      (atZero [0x18, 0x00] ∧ ((demo [0x18, 0x00]).reg .sp).toNat + 1 < (demo [0x18, 0x00]).mem.len) ∧
      atZero [0x5F, 0x00] ∧ callInMemory (demo [0x5F, 0x00]) := by
  refine ⟨⟨?_, ?_⟩, ?_, ?_, ⟨?_, ?_⟩, ?_, ?_, ?_, ⟨?_, ?_⟩, ?_, fun k hk => inMemory_of_lt ?_⟩
  case refine_13 => revert k; decide
  all_goals decide

/-- SP is pushed at the last whole word; one byte higher the push faults. -/
theorem witness_PushesStoreAtTheOldSp :
    (∃ reg r, Instr.pshReg 10 = .pshReg reg ∧ Reg.ofIndex reg = some r ∧ (254 : Word) = (demo []).reg r) ∧
      (demo []).mem.wf = true ∧ ((demo []).reg .sp).toNat + 1 < (demo []).mem.len ∧
      (demo []).mem.len ≤ (((demo []).setReg .sp 255).reg .sp).toNat + 1 :=
  ⟨⟨10, .sp, rfl, by decide, by decide⟩, by decide, by decide, by decide⟩

theorem witness_PushOfBadIndexFaults : 12 ≤ (12 : Byte).toNat := by decide

theorem witness_PopReadsAboveSp :
    Reg.ofIndex 10 = some .sp ∧ (((demo []).setReg .sp 252).reg .sp + 2).toNat + 1 < (demo []).mem.len ∧
      12 ≤ (12 : Byte).toNat ∧ (demo []).mem.len ≤ (((demo []).setReg .sp 253).reg .sp + 2).toNat + 1 := by decide

theorem witness_ThreePushesPopInReverse :
    (demo []).Inv ∧ ∃ s1 s2 s3, push 1 (demo []) = .ok s1 ∧ push 2 s1 = .ok s2 ∧ push 3 s2 = .ok s3 :=
  ⟨⟨by decide, by decide⟩, _, _, _, rfl, rfl, rfl⟩

/-- The whole of a frame just fits: its last word is at address 0. -/
theorem witness_CalLitPushesTheFrame :
    ((demo []).setReg .sp 18).mem.wf = true ∧ callInMemory ((demo []).setReg .sp 18) := by
  refine ⟨by decide, fun k hk => inMemory_of_lt ?_⟩
  revert k
  decide

theorem witness_CalRegPushesTheFrame :
    ((demo []).setReg .sp 254).mem.wf = true ∧ Reg.ofIndex 10 = some .sp ∧
      callInMemory ((demo []).setReg .sp 254) := by
  refine ⟨by decide, by decide, fun k hk => inMemory_of_lt ?_⟩
  revert k
  decide

/-- One word lower the last push wraps to 0xFFFE, outside memory. -/
theorem witness_CallsFaultOutsideMemory :
    9 < 10 ∧ ¬ wordInMemory (pushSlot (((demo []).setReg .sp 16).reg .sp) 9) ((demo []).setReg .sp 16) ∧
      12 ≤ (12 : Byte).toNat := by
  refine ⟨by decide, fun h => ?_, by decide⟩
  exact absurd (show _ + 1 < 256 from h) (by decide)

theorem witness_RetRestoresFromTheFrame : retCount frame = 1 ∧ retInMemory frame := by
  have h : retCount frame = 1 := by decide
  refine ⟨h, fun k _ hk => inMemory_of_lt ?_⟩
  rw [h] at hk
  have hk : k < 13 := by simp at hk; omega
  clear h
  revert k
  decide

/-- A frame whose last word, the one argument it counts, would start where memory ends: k = 11 + n for n = 1. -/
def frameAtTop : State :=
  setRegs
    (demoLen 24 [0x60, 0x00, 0x00, 0x16, 0x00, 0x30, 0x00, 0x08, 0x00, 0x07, 0x00, 0x06, 0x00, 0x05, 0x00, 0x04, 0x00,
      0x03, 0x00, 0x02, 0x00, 0x01, 0x00, 0x01])
    [(.fp, 0)]

/-- The first pop outside memory, k = 1; the last one, k = 11 + n, where all before it are inside; the initial FP. -/
theorem witness_RetFaultsOutsideMemory :
    (1 ≤ 1 ∧ 1 ≤ 11 + (retCount (demo [])).toNat ∧ ¬ wordInMemory (popSlot ((demo []).reg .fp) 1) (demo [])) ∧
      (retCount frameAtTop = 1 ∧ (∀ k, 1 ≤ k → k < 12 → wordInMemory (popSlot (frameAtTop.reg .fp) k) frameAtTop) ∧
        12 ≤ 11 + (retCount frameAtTop).toNat ∧ ¬ wordInMemory (popSlot (frameAtTop.reg .fp) 12) frameAtTop) ∧
      Config.memLenOk (demo []).mem.len ∧ ((demo []).reg .fp).toNat = (demo []).mem.len - 2 := by
  refine ⟨⟨by decide, by omega, fun h => ?_⟩, ⟨by decide, fun k _ hk => inMemory_of_lt ?_, by decide, fun h => ?_⟩,
    by decide, by decide⟩
  · exact absurd (show _ + 1 < 256 from h) (by decide)
  · revert k
    decide
  · exact absurd (show _ + 1 < 24 from h) (by decide)

/-- A count word 0 stands at SP + 2, the last word of memory, and the callee has done nothing. -/
theorem witness_RetUndoesTheCall :
    ((demo []).setReg .sp 252).Inv ∧
      exec (.calLit 0x40) ((demo []).setReg .sp 252) = .next (execD (.calLit 0x40) ((demo []).setReg .sp 252)) ∧
      (execD (.calLit 0x40) ((demo []).setReg .sp 252)).mem.len = ((demo []).setReg .sp 252).mem.len ∧
      (execD (.calLit 0x40) ((demo []).setReg .sp 252)).mem.wordAt
        (popSlot (((demo []).setReg .sp 252).reg .sp) 1).toNat = 0 ∧
      ∀ k, 1 ≤ k → k ≤ 1 + (0 : Word).toNat →
        wordInMemory (popSlot (((demo []).setReg .sp 252).reg .sp) k)
          (execD (.calLit 0x40) ((demo []).setReg .sp 252)) := by
  refine ⟨⟨by decide, by decide⟩, by rfl, by decide, by decide, fun k h1 h2 => inMemory_of_lt ?_⟩
  have hk : k = 1 := by simp at h2; omega
  subst hk
  decide

/-- A caller at SP = 18 that pushed the arguments 0xBBBB and 0xAAAA and the count 2, which end where memory does. -/
def caller : State :=
  setRegs
    (demoLen 26 [0, 0, 0, 0, 0, 0, 0, 0, 0, 0, 0, 0, 0, 0, 0, 0, 0, 0, 0, 0, 0x00, 0x02, 0xAA, 0xAA, 0xBB, 0xBB])
    [(.sp, 18), (.r1, 0x40)]

/-- CAL_REG with the count 2, whose callee has changed ACC. -/
theorem witness_RetUndoesTheCall_calReg :
    caller.Inv ∧ exec (.calReg 2) caller = .next (execD (.calReg 2) caller) ∧
      ((execD (.calReg 2) caller).setReg .acc 7).mem.len = caller.mem.len ∧
      ((execD (.calReg 2) caller).setReg .acc 7).reg .fp = (execD (.calReg 2) caller).reg .fp ∧
      ((execD (.calReg 2) caller).setReg .acc 7).mem.wordAt (popSlot (caller.reg .sp) 1).toNat = 2 ∧
      ∀ k, 1 ≤ k → k ≤ 1 + (2 : Word).toNat →
        wordInMemory (popSlot (caller.reg .sp) k) ((execD (.calReg 2) caller).setReg .acc 7) := by
  refine ⟨⟨by decide, by decide⟩, by rfl, by decide, by decide, by decide, fun k h1 h2 => inMemory_of_lt ?_⟩
  have hk : k < 4 := by simp at h2; omega
  clear h2
  revert k
  decide

/-- CAL_LIT, and CAL_REG in the shortest memory that holds a frame. -/
theorem witness_RetWithoutCountFaults :
    (Config.memLenOk (demo []).mem.len ∧ ((demo []).reg .sp).toNat = (demo []).mem.len - 2 ∧
      exec (.calLit 0x40) (demo []) = .next (execD (.calLit 0x40) (demo [])) ∧
      (execD (.calLit 0x40) (demo [])).mem.len = (demo []).mem.len) ∧
    (Config.memLenOk (demoLen 20 []).mem.len ∧ ((demoLen 20 []).reg .sp).toNat = (demoLen 20 []).mem.len - 2 ∧
      exec (.calReg 2) (demoLen 20 []) = .next (execD (.calReg 2) (demoLen 20 [])) ∧
      (execD (.calReg 2) (demoLen 20 [])).mem.len = (demoLen 20 []).mem.len) :=
  ⟨⟨by decide, by decide, by rfl, by decide⟩, by decide, by decide, by rfl, by decide⟩

theorem witness_InstructionsWriteOnlyTheirRegisters :
    exec (.pop 10) ((demo []).setReg .sp 252) = .next (execD (.pop 10) ((demo []).setReg .sp 252)) ∧
      Reg.fp ∉ writtenRegs (.pop 10) := ⟨by rfl, by decide⟩

/-- A store beside the byte read, and a form that stores nothing. -/
theorem witness_InstructionsStoreOnlyTheirWords :
    (demo []).mem.wf = true ∧ exec (.movRegMem 1 0x80) (demo []) = .next (execD (.movRegMem 1 0x80) (demo [])) ∧
      (∀ a, a ∈ storedWords (.movRegMem 1 0x80) (demo []) → 0x82 ≠ a.toNat ∧ 0x82 ≠ a.toNat + 1) ∧
      ∀ a, a ∈ storedWords (.movRegReg 1 2) (demo []) → 0x80 ≠ a.toNat ∧ 0x80 ≠ a.toNat + 1 :=
  ⟨by decide, by rfl, fun a ha => by simp only [storedWords, List.mem_singleton] at ha; subst ha; decide,
    fun a ha => nomatch ha⟩

theorem witness_OnlyStackWritesSfsOnlyHaltWritesStatus :
    exec (.movLitReg 1 2) (demo []) = .next (execD (.movLitReg 1 2) (demo [])) ∧ writesSfs (.movLitReg 1 2) = false ∧
      Instr.movLitReg 1 2 ≠ .halt := ⟨by rfl, by decide, by decide⟩

/-- A push from SP = 2 and a call from SP = 20, the least that do not wrap; a pop; a RET. -/
theorem witness_NoWrapMakesTheStackExact :
    (noWrap (.pshLit 1) ((demo []).setReg .sp 2) ∧
      exec (.pshLit 1) ((demo []).setReg .sp 2) = .next (execD (.pshLit 1) ((demo []).setReg .sp 2))) ∧
    (noWrap (.pop 2) ((demo []).setReg .sp 252) ∧
      exec (.pop 2) ((demo []).setReg .sp 252) = .next (execD (.pop 2) ((demo []).setReg .sp 252))) ∧
    (((demo []).setReg .sp 20).mem.wf = true ∧ noWrap (.calLit 0) ((demo []).setReg .sp 20) ∧
      exec (.calLit 0) ((demo []).setReg .sp 20) = .next (execD (.calLit 0) ((demo []).setReg .sp 20))) ∧
    (noWrap .ret frame ∧ exec .ret frame = .next (execD .ret frame)) :=
  ⟨⟨⟨by decide, by decide⟩, by rfl⟩, ⟨⟨by decide, by decide⟩, by rfl⟩, ⟨by decide, ⟨by decide, by decide⟩, by rfl⟩,
    ⟨⟨⟨by decide, by decide⟩, ⟨by decide, by decide⟩, by decide, by decide⟩, by rfl⟩⟩

/-- The least length, and the lengths just outside the range. -/
theorem witness_ConstructBuildsTheInitialState :
    (Config.memLenOk 2 ∧ ([0xAA, 0xBB] : List Byte).length = 2) ∧ ¬ Config.memLenOk 1 ∧ ¬ Config.memLenOk 65536 := by
  decide

theorem witness_LoadInstallsOrFaults :
    (demo []).mem.wf = true ∧ (0xFF : Word).toNat + ([0xAA] : List Byte).length ≤ (demo []).mem.len ∧
      (demo []).mem.len < (0xFF : Word).toNat + ([0xAA, 0xBB] : List Byte).length ∧ (demo []).status = .running ∧
      ((demo []).setStatus .halted).status ≠ .running := by decide

theorem witness_StepTransactionFollowsTheStatus :
    ((demo [0xFF]).status = .running ∧
      step (demo [0xFF]) = .next (((demo [0xFF]).setReg .ip 1).setStatus .halted)) ∧
    ((demo [0x16]).status = .running ∧ step (demo [0x16]) = .fault .unknownOpcode) ∧
    ((demo []).setStatus .halted).status = .halted ∧
    ((demo []).setStatus (.faulted .unknownOpcode)).status = .faulted .unknownOpcode :=
  ⟨⟨by decide, by rfl⟩, ⟨by decide, by rfl⟩, by decide, by decide⟩

theorem witness_DebugAccessorsRead :
    Reg.ofIndex 11 = some .fp ∧ 12 ≤ (12 : Byte).toNat ∧ (255 : Word).toNat < (demo []).mem.len ∧
      (demo []).mem.len ≤ (256 : Word).toNat := by decide

/-- V-FD-1 ends, V-FD-3 faults, V-BR-3 diverges. -/
theorem witness_EveryRunHasOneOutcome :
    runEnds (demo [0xFF]) 1 (((demo [0xFF]).setReg .ip 1).setStatus .halted) ∧
      runFaults (demo [0x16]) 1 .unknownOpcode ∧ runDiverges (demo [0x15, 0x00, 0x01, 0x00, 0x00]) := by
  refine ⟨⟨by rfl, by rfl⟩, by rfl, fun n => ⟨demo [0x15, 0x00, 0x01, 0x00, 0x00], ?_, by rfl⟩⟩
  have h : step (demo [0x15, 0x00, 0x01, 0x00, 0x00]) = .next (demo [0x15, 0x00, 0x01, 0x00, 0x00]) := by rfl
  induction n with
  | zero => rfl
  | succ n ih => rw [run_succ, h]; exact ih

end Sys2Proof.Tests
end

/-! Proofs of the scope family (spec/00_scope.md): no instruction is refused, and the invariant of R5 and R31 holds at
reset and is kept by every step. -/

namespace Sys2Proof.Machine

/-! ### No refusal -/

/-- Every arm of `exec` ends in `conclude`, which answers a next state or a fault. -/
theorem exec_eq_conclude (i : Instr) (s : State) : ∃ x : Except Fault State, exec i s = conclude x := by
  cases i
  case jmpNotEq literal addr =>
    exact ⟨.ok (if branchTaken literal (s.reg .acc) then s.setReg .ip addr else s), rfl⟩
  case halt => exact ⟨.ok (s.setStatus .halted), rfl⟩
  all_goals exact ⟨_, rfl⟩

theorem exec_ne_refused (i : Instr) (s : State) (r : Refusal) : exec i s ≠ .refused r := by
  obtain ⟨x, hx⟩ := exec_eq_conclude i s
  rw [hx]
  exact conclude_ne_refused

theorem step_ne_refused (s : State) (r : Refusal) : step s ≠ .refused r := by
  unfold step
  split
  · nofun
  · nofun
  · split
    · nofun
    · exact exec_ne_refused _ _ r

/-- Settles O10: a step refuses only if `exec` does, and no arm of `exec` does. -/
theorem stepNeverRefuses : Obligations.StepNeverRefuses :=
  ⟨step_ne_refused, exec_ne_refused⟩

/-! ### What an instruction stores -/

/-- From `s` to `t` memory changes by the stores of `i` and by nothing else: some words, all of them in memory, written
from an address `a` downward, at the addresses that `storedWords` lists. -/
def storesOnly (i : Instr) (s t : State) : Prop :=
  ∃ (a : Word) (vs : List Word), storedWords i s = (List.range vs.length).map (pushSlot a) ∧
    (∀ k, k < vs.length → wordInMemory (pushSlot a k) s) ∧ t.mem = putWords s.mem a vs

theorem storesOnly_of_mem_eq {i : Instr} {s t : State} (hi : storedWords i s = []) (hm : t.mem = s.mem) :
    storesOnly i s t :=
  ⟨0, [], hi, nofun, hm⟩

theorem storesOnly_of_putWord {i : Instr} {s t : State} {a v : Word} (hi : storedWords i s = [a])
    (ha : a.toNat + 1 < s.mem.len) (hm : t.mem = s.mem.putWord a.toNat v) : storesOnly i s t := by
  refine ⟨a, [v], by simp [hi], ?_, hm⟩
  intro k hk
  obtain rfl : k = 0 := by simpa using hk
  simpa [wordInMemory] using ha

theorem storesOnly_of_push {i : Instr} {s t : State} {v : Word} (hi : storedWords i s = [s.reg .sp])
    (h : push v s = .ok t) : storesOnly i s t := by
  obtain ⟨hsp, rfl⟩ := push_eq_ok h
  exact storesOnly_of_putWord hi hsp rfl

theorem storesOnly_of_pushState {i : Instr} {s u t : State}
    (hi : storedWords i s = (List.range 10).map (pushSlot (s.reg .sp))) (h : pushState s = .ok u) (hm : t.mem = u.mem) :
    storesOnly i s t := by
  obtain ⟨hin, hmem, -⟩ := pushState_eq_ok h
  exact ⟨s.reg .sp, frameWords s, hi, hin, hm.trans hmem⟩

/-- An instruction that completes has stored its words, all in memory, and no other byte has changed (R29, R87). -/
theorem exec_storesOnly {i : Instr} {s t : State} (h : exec i s = .next t) : storesOnly i s t := by
  cases i with
  | movLitReg literal reg =>
    obtain ⟨r, -, rfl⟩ := execMovLitReg_next h
    exact storesOnly_of_mem_eq rfl rfl
  | movRegReg src dst =>
    obtain ⟨q, r, -, -, rfl⟩ := execMovRegReg_next h
    exact storesOnly_of_mem_eq rfl rfl
  | movRegMem reg addr =>
    obtain ⟨r, -, haddr, rfl⟩ := execMovRegMem_next h
    exact storesOnly_of_putWord rfl haddr rfl
  | movMemReg addr reg =>
    obtain ⟨r, -, -, rfl⟩ := execMovMemReg_next h
    exact storesOnly_of_mem_eq rfl rfl
  | addRegReg a b =>
    obtain ⟨q, r, -, -, rfl⟩ := execAddRegReg_next h
    exact storesOnly_of_mem_eq rfl rfl
  | jmpNotEq literal addr =>
    have hmem : t.mem = s.mem := by
      rw [execJmpNotEq_next h]
      split <;> rfl
    exact storesOnly_of_mem_eq rfl hmem
  | pshLit literal => exact storesOnly_of_push rfl (execPshLit_next h)
  | pshReg reg =>
    obtain ⟨r, -, hpush⟩ := execPshReg_next h
    exact storesOnly_of_push rfl hpush
  | pop reg =>
    obtain ⟨r, -, -, rfl⟩ := execPop_next h
    exact storesOnly_of_mem_eq rfl rfl
  | calLit addr =>
    obtain ⟨u, hpush, rfl⟩ := execCalLit_next h
    exact storesOnly_of_pushState rfl hpush rfl
  | calReg reg =>
    obtain ⟨r, u, -, hpush, rfl⟩ := execCalReg_next h
    exact storesOnly_of_pushState rfl hpush rfl
  | ret =>
    obtain ⟨-, hmem, -⟩ := popState_eq_ok (execRet_next h)
    exact storesOnly_of_mem_eq rfl hmem
  | halt =>
    obtain rfl := execHalt_next h
    exact storesOnly_of_mem_eq rfl rfl

/-! ### The fetch -/

/-- All that a fetch that succeeds has done (R61, R62): its bytes lie in memory and decode to the instruction, and IP is
past them. -/
theorem fetchInstr_eq_ok {s u : State} {i : Instr} (hlen : s.mem.len ≤ 65535) (h : fetchInstr s = .ok (i, u)) :
    (s.reg .ip).toNat + i.length ≤ s.mem.len ∧
      decode (s.mem.bytesFrom (s.reg .ip).toNat i.length) = .ok (i, []) ∧
      u = s.setReg .ip (s.reg .ip + BitVec.ofNat 16 i.length) := by
  obtain ⟨-, hf⟩ | ⟨-, -, hf⟩ | ⟨o, -, -, -, hf⟩ | ⟨j, hin, hdec, hf⟩ := fetchInstr_cases s hlen <;>
    rw [hf] at h <;> cases h
  exact ⟨hin, hdec, rfl⟩

/-! ### The invariant -/

/-- The invariant speaks of memory only. -/
theorem State.Inv.of_mem_eq {s t : State} (hs : s.Inv) (hm : t.mem = s.mem) : t.Inv := by
  unfold State.Inv
  rw [hm]
  exact hs

theorem storesOnly_keeps_inv {i : Instr} {s t : State} (h : storesOnly i s t) (hs : s.Inv) : t.Inv := by
  obtain ⟨hlen, hwf⟩ := hs
  obtain ⟨a, vs, -, hin, hm⟩ := h
  unfold State.Inv
  rw [hm, len_putWords]
  exact ⟨hlen, wf_putWords hwf hin⟩

theorem exec_keeps_inv {i : Instr} {s t : State} (hs : s.Inv) (h : exec i s = .next t) : t.Inv :=
  storesOnly_keeps_inv (exec_storesOnly h) hs

theorem fetchInstr_keeps_inv {s u : State} {i : Instr} (hs : s.Inv) (h : fetchInstr s = .ok (i, u)) : u.Inv := by
  obtain ⟨⟨-, hlen⟩, -⟩ := id hs
  obtain ⟨-, -, rfl⟩ := fetchInstr_eq_ok hlen h
  exact hs.of_mem_eq rfl

/-- Settles O12: a fetch leaves memory as it is, and the instruction changes it only by word writes in bounds. -/
theorem stepKeepsInvariant : Obligations.StepKeepsInvariant := by
  intro s t hs h
  obtain ⟨-, rfl⟩ | ⟨-, i, u, hfetch, hexec⟩ := step_next h
  · exact hs
  · exact exec_keeps_inv (fetchInstr_keeps_inv hs hfetch) hexec

/-- Settles O13: the bank at reset has the greatest admitted length and lists no cell. -/
theorem resetHasInvariant : Obligations.ResetHasInvariant :=
  ⟨by decide, Memory.wf_empty resetMemLen⟩

end Sys2Proof.Machine

/-! Proofs of the state family (spec/10_state.md): the register table and its port, the state that CONSTRUCT builds, the
advance of IP by a fetch, and which registers, `sfs` and status an instruction may change. -/

namespace Sys2Proof.Machine

/-! ### The register table and the register port -/

/-- Settles O16: the twelve rows are evaluated; an index of 12 or more is the case of `Reg.ofIndex_eq_none`. -/
theorem registerIndexTable : Obligations.RegisterIndexTable :=
  ⟨rfl, rfl, rfl, rfl, rfl, rfl, rfl, rfl, rfl, rfl, rfl, rfl, fun _ => Reg.ofIndex_eq_none.mpr⟩

theorem readIndex_setReg_same {i : Byte} {r : Reg} (s : State) (v : Word) (hi : Reg.ofIndex i = some r) :
    readIndex i (s.setReg r v) = .ok v := by
  simp [readIndex_ok _ hi]

/-- An index that does not name the written register reads as before; an index that names none still raises. -/
theorem readIndex_setReg_of_ne {j : Byte} {r : Reg} (s : State) (v : Word) (hj : Reg.ofIndex j ≠ some r) :
    readIndex j (s.setReg r v) = readIndex j s := by
  cases hq : Reg.ofIndex j with
  | none =>
    have hbad := Reg.ofIndex_eq_none.mp hq
    rw [readIndex_error _ hbad, readIndex_error _ hbad]
  | some q =>
    have hne : q ≠ r := by
      rintro rfl
      exact hj hq
    simp [readIndex_ok _ hq, hne]

/-- Settles O17: below 12 the index names one register, and no other index names it. -/
theorem registerPortReadsAndWrites : Obligations.RegisterPortReadsAndWrites := by
  intro s i v
  refine ⟨fun hbad => ⟨readIndex_error s hbad, writeIndex_error v s hbad⟩, fun r hr => readIndex_ok s hr, fun hlt => ?_⟩
  obtain ⟨r, hr⟩ := Reg.exists_of_lt hlt
  have hother : ∀ j, j ≠ i → Reg.ofIndex j ≠ some r := fun j hne hj =>
    hne ((Reg.ofIndex_eq_some.mp hj).symm.trans (Reg.ofIndex_eq_some.mp hr))
  exact ⟨s.setReg r v, writeIndex_ok v s hr, readIndex_setReg_same s v hr,
    fun j hne => readIndex_setReg_of_ne s v (hother j hne), rfl, rfl, rfl⟩

/-! ### The advance of IP -/

/-- Settles O11: the bytes of the instruction lie in memory, whose length is below 2^16, so the sum does not wrap. -/
theorem fetchNeverWrapsIp : Obligations.FetchNeverWrapsIp := by
  rintro s t i ⟨-, hlen⟩ h
  have hmax : s.mem.len ≤ 65535 := hlen
  obtain ⟨hin, -, rfl⟩ := fetchInstr_eq_ok hmax h
  have hip : ((s.setReg .ip (s.reg .ip + BitVec.ofNat 16 i.length)).reg .ip).toNat =
      (s.reg .ip).toNat + i.length := by
    rw [State.reg_setReg, if_pos rfl, BitVec.toNat_add, BitVec.toNat_ofNat]
    omega
  exact ⟨hip, hip.trans_le hin, fun r hr => by simp [hr], rfl, rfl, rfl⟩

/-! ### CONSTRUCT -/

theorem construct_eq_some {len : Nat} {init : List Byte} (hlen : Config.memLenOk len) (hinit : init.length = len) :
    construct len init =
      some { mem := Memory.ofBytes len init, regs := RegFile.initial len, sfs := 0, status := .running } :=
  if_pos ⟨hlen, hinit⟩

theorem construct_eq_none {len : Nat} (init : List Byte) (hlen : ¬ Config.memLenOk len) : construct len init = none :=
  if_neg fun h => hlen h.1

theorem RegFile.initial_get (len : Nat) (r : Reg) :
    (RegFile.initial len).get r = if r = .sp ∨ r = .fp then BitVec.ofNat 16 (len - 2) else 0 := by
  cases r <;> rfl

/-- Settles O47: an admitted length is below 2^16, so SP and FP hold `MEM_LEN - 2` itself. -/
theorem constructBuildsTheInitialState : Obligations.ConstructBuildsTheInitialState := by
  intro len init
  refine ⟨fun hlen hinit => ?_, construct_eq_none init⟩
  have hmax : len ≤ 65535 := hlen.2
  have hword : (BitVec.ofNat 16 (len - 2)).toNat = len - 2 := by
    rw [BitVec.toNat_ofNat]
    omega
  have hbyte : ∀ k (hk : k < init.length), (Memory.ofBytes len init).byteAt k = init[k] := fun k hk => by
    simp [Memory.byteAt_ofBytes hinit.le, hk]
  have hzero : ∀ r, r ≠ .sp → r ≠ .fp → (RegFile.initial len).get r = 0 := fun r hsp hfp => by
    simp [RegFile.initial_get, hsp, hfp]
  exact ⟨_, construct_eq_some hlen hinit, Memory.len_ofBytes len init, hbyte, Memory.wf_ofBytes hinit.le, hzero,
    hword, hword, rfl, rfl⟩

/-! ### What an instruction leaves unchanged -/

/-- From `s` to `t` nothing but memory changes beside what R29 lists for `i`. -/
structure Frame (i : Instr) (s t : State) : Prop where
  regs : ∀ r, r ∉ writtenRegs i → t.reg r = s.reg r
  sfs : writesSfs i = false → t.sfs = s.sfs
  status : i ≠ .halt → t.status = s.status

theorem frame_of_setReg {i : Instr} (s : State) {r : Reg} (v : Word) (hr : r ∈ writtenRegs i) :
    Frame i s (s.setReg r v) where
  regs q hq := by
    have hne : q ≠ r := by
      rintro rfl
      exact hq hr
    simp [hne]
  sfs _ := rfl
  status _ := rfl

theorem frame_of_push {i : Instr} {s t : State} {v : Word} (hsp : .sp ∈ writtenRegs i) (hsfs : writesSfs i = true)
    (h : push v s = .ok t) : Frame i s t where
  regs q hq := by
    have hne : q ≠ .sp := by
      rintro rfl
      exact hq hsp
    simp [(push_eq_ok h).2, hne]
  sfs hw := by simp [hsfs] at hw
  status _ := by simp [(push_eq_ok h).2]

/-- The part that CAL_LIT and CAL_REG share: push_state, and then a write of IP. -/
theorem frame_of_pushState {i : Instr} {s u : State} (target : Word) (hregs : writtenRegs i = [.sp, .fp, .ip])
    (hsfs : writesSfs i = true) (h : pushState s = .ok u) : Frame i s (u.setReg .ip target) := by
  obtain ⟨-, -, -, hstatus, -, -, hother⟩ := pushState_eq_ok h
  constructor
  case regs =>
    intro q hq
    simp only [hregs, List.mem_cons, List.not_mem_nil, or_false, not_or] at hq
    obtain ⟨hsp, hfp, hip⟩ := hq
    simp [hip, hother q hsp hfp]
  case sfs => simp [hsfs]
  case status => exact fun _ => hstatus

/-- ACC is the one register that RET does not restore. -/
theorem frame_of_popState {s t : State} (h : popState s = .ok t) : Frame .ret s t := by
  obtain ⟨-, -, hstatus, -, -, -, hacc, -⟩ := popState_eq_ok h
  constructor
  case regs =>
    intro q hq
    obtain rfl : q = .acc := by
      cases q
      case acc => rfl
      all_goals exact absurd (by decide) hq
    exact hacc
  case sfs => exact nofun
  case status => exact fun _ => hstatus

theorem frame_of_halt (s : State) : Frame .halt s (s.setStatus .halted) where
  regs _ _ := rfl
  sfs _ := rfl
  status h := absurd rfl h

theorem mem_writtenRegs_of_ofIndex {b : Byte} {r : Reg} (h : Reg.ofIndex b = some r) : r ∈ (Reg.ofIndex b).toList := by
  simp [h]

/-- R29, instruction by instruction. -/
theorem exec_frame {i : Instr} {s t : State} (h : exec i s = .next t) : Frame i s t := by
  cases i with
  | movLitReg literal reg =>
    obtain ⟨r, hr, rfl⟩ := execMovLitReg_next h
    exact frame_of_setReg s _ (mem_writtenRegs_of_ofIndex hr)
  | movRegReg src dst =>
    obtain ⟨q, r, -, hr, rfl⟩ := execMovRegReg_next h
    exact frame_of_setReg s _ (mem_writtenRegs_of_ofIndex hr)
  | movRegMem reg addr =>
    obtain ⟨r, -, -, rfl⟩ := execMovRegMem_next h
    exact ⟨fun _ _ => rfl, fun _ => rfl, fun _ => rfl⟩
  | movMemReg addr reg =>
    obtain ⟨r, hr, -, rfl⟩ := execMovMemReg_next h
    exact frame_of_setReg s _ (mem_writtenRegs_of_ofIndex hr)
  | addRegReg a b =>
    obtain ⟨q, r, -, -, rfl⟩ := execAddRegReg_next h
    exact frame_of_setReg s _ (List.mem_singleton.mpr rfl)
  | jmpNotEq literal addr =>
    rw [execJmpNotEq_next h]
    split
    · exact frame_of_setReg s _ (List.mem_singleton.mpr rfl)
    · exact ⟨fun _ _ => rfl, fun _ => rfl, fun _ => rfl⟩
  | pshLit literal => exact frame_of_push (List.mem_singleton.mpr rfl) rfl (execPshLit_next h)
  | pshReg reg =>
    obtain ⟨r, -, hpush⟩ := execPshReg_next h
    exact frame_of_push (List.mem_singleton.mpr rfl) rfl hpush
  | pop reg =>
    obtain ⟨r, hr, -, rfl⟩ := execPop_next h
    refine ⟨fun q hq => ?_, nofun, fun _ => rfl⟩
    obtain ⟨hsp, hqr⟩ : q ≠ .sp ∧ q ≠ r := by simpa [writtenRegs, hr] using hq
    simp [hsp, hqr]
  | calLit addr =>
    obtain ⟨u, hpush, rfl⟩ := execCalLit_next h
    exact frame_of_pushState addr rfl rfl hpush
  | calReg reg =>
    obtain ⟨r, u, -, hpush, rfl⟩ := execCalReg_next h
    exact frame_of_pushState (s.reg r) rfl rfl hpush
  | ret => exact frame_of_popState (execRet_next h)
  | halt =>
    obtain rfl := execHalt_next h
    exact frame_of_halt s

/-- Settles O43: the register part of `exec_frame`. -/
theorem instructionsWriteOnlyTheirRegisters : Obligations.InstructionsWriteOnlyTheirRegisters :=
  fun _ _ _ r h => (exec_frame h).regs r

/-- Settles O45: the other two parts of `exec_frame`. -/
theorem onlyStackWritesSfsOnlyHaltWritesStatus : Obligations.OnlyStackWritesSfsOnlyHaltWritesStatus :=
  fun _ _ _ h => ⟨(exec_frame h).sfs, (exec_frame h).status⟩

end Sys2Proof.Machine

/-! Proofs of the memory family (spec/20_memory.md): the byte and word accesses, the canonical form of a bank, what a
fetch sees of a store, the bytes and the length that an instruction keeps, and a target outside memory. -/

namespace Sys2Proof.Machine

/-! ### The checked accesses -/

/-- Settles O18: the two sides of the check, and the law of the bank for a byte write. -/
theorem byteAccessesAreBoundsChecked : Obligations.ByteAccessesAreBoundsChecked := by
  intro s a b
  refine ⟨fun hout => ⟨readU8_error hout, writeU8_error hout⟩, readU8_ok, fun hwf hin => ?_⟩
  exact ⟨_, writeU8_ok hin, Memory.byteAt_putByte hwf a.toNat b, rfl, fun _ => rfl, rfl, rfl⟩

/-- Settles O19: the two sides of the check, and the law of the bank for a word write. -/
theorem wordAccessesAreBigEndianAndChecked : Obligations.WordAccessesAreBigEndianAndChecked := by
  intro s a w
  refine ⟨fun hout => ⟨readU16_error hout, writeU16_error hout⟩, readU16_ok, fun hwf hin => ?_⟩
  exact ⟨_, writeU16_ok hin, Memory.byteAt_putWord hwf hin w, rfl, fun _ => rfl, rfl, rfl⟩

/-- Settles O21: the cells of a canonical bank are determined by its bytes. -/
theorem canonicalMemoriesAreEqual : Obligations.CanonicalMemoriesAreEqual := by
  rintro ⟨len, cells⟩ ⟨len', cells'⟩ hwf hwf' hlen hbytes
  obtain rfl : len = len' := hlen
  obtain rfl : cells = cells' := cells_ext hwf hwf' hbytes
  rfl

/-! ### Reading what was stored -/

/-- The high byte of the word just written, by its address (R36). -/
theorem Memory.byteAt_putWord_high {m : Memory} (h : m.wf = true) {a : Nat} (ha : a + 1 < m.len) (w : Word) :
    (m.putWord a w).byteAt a = hiByte w := by
  simp [Memory.byteAt_putWord h ha]

/-- The low byte of the word just written, by its address (R36). -/
theorem Memory.byteAt_putWord_low {m : Memory} (h : m.wf = true) {a : Nat} (ha : a + 1 < m.len) (w : Word) :
    (m.putWord a w).byteAt (a + 1) = loByte w := by
  simp [Memory.byteAt_putWord h ha]

/-- A word read one byte below the word just written: its low byte is the high byte written (R36). -/
theorem Memory.wordAt_putWord_above {m : Memory} (h : m.wf = true) {a : Nat} (ha : a + 1 + 1 < m.len) (w : Word) :
    (m.putWord (a + 1) w).wordAt a = combine (m.byteAt a) (hiByte w) := by
  have hne : a ≠ a + 1 + 1 := by omega
  simp [Memory.wordAt, Memory.byteAt_putWord h ha, hne]

/-- The next address after a word's in a memory of an admitted length is no wrapped one. -/
theorem toNat_add_one_of_lt {a : Word} {n : Nat} (hn : n ≤ 65535) (ha : a.toNat + 1 < n) :
    (a + 1).toNat = a.toNat + 1 := by
  bv_omega

/-- A word write that succeeds, seen from the state it leaves. -/
theorem writeU16_leaves {a w : Word} {s t : State} (h : writeU16 a w s = .ok t) :
    a.toNat + 1 < s.mem.len ∧ a.toNat + 1 < t.mem.len ∧ t.mem = s.mem.putWord a.toNat w := by
  obtain ⟨hin, rfl⟩ := writeU16_eq_ok h
  exact ⟨hin, hin, rfl⟩

/-- Settles O20: the second write replaces the byte at `a + 1` and leaves the one at `a`. -/
theorem overlappingWordsShareTheirByte : Obligations.OverlappingWordsShareTheirByte := by
  rintro s s1 s2 a v w ⟨⟨-, hlen⟩, hwf⟩ h1 h2
  obtain ⟨hin, hin1, hmem1⟩ := writeU16_leaves h1
  obtain ⟨hnext1, hnext2, hmem2⟩ := writeU16_leaves h2
  have hsucc : (a + 1).toNat = a.toNat + 1 := toNat_add_one_of_lt hlen hin
  have hwf1 : s1.mem.wf = true := by
    rw [hmem1]
    exact Memory.wf_putWord hwf hin v
  have hhigh : s1.mem.byteAt a.toNat = hiByte v := by rw [hmem1, Memory.byteAt_putWord_high hwf hin]
  have hlow : s1.mem.byteAt (a.toNat + 1) = loByte v := by rw [hmem1, Memory.byteAt_putWord_low hwf hin]
  refine ⟨?_, ?_, ?_, ?_, ?_⟩
  · rw [readU16_ok hin1, Memory.wordAt, hhigh, hlow, combine_split]
  · rw [readU8_ok (Nat.lt_of_succ_lt hin1), hhigh]
  · rw [readU8_ok (Nat.lt_of_succ_lt hnext1), hsucc, hlow]
  · have hin2 : a.toNat + 1 < s2.mem.len := by omega
    rw [hsucc] at hnext1
    rw [readU16_ok hin2, hmem2, hsucc, Memory.wordAt_putWord_above hwf1 hnext1, hhigh]
  · rw [readU16_ok hnext2, hmem2, Memory.wordAt_putWord hwf1 hnext1]

/-- Settles O22: the fetch primitives read the bank that the store has left. -/
theorem storeIsSeenByFetch : Obligations.StoreIsSeenByFetch := by
  intro s t a w hwf h hip
  obtain ⟨hin, hin', hmem⟩ := writeU16_leaves h
  constructor
  · rw [fetchU16_eq, hip, if_neg (Nat.not_le.mpr hin'), hmem, Memory.wordAt_putWord hwf hin]
  · rw [fetchU8_eq, hip, if_neg (Nat.not_le.mpr (Nat.lt_of_succ_lt hin')), hmem, Memory.byteAt_putWord_high hwf hin]

/-! ### The bytes and the length an instruction keeps -/

/-- Settles O44: memory after the instruction is the bank with its words put in, which keeps every other byte. -/
theorem instructionsStoreOnlyTheirWords : Obligations.InstructionsStoreOnlyTheirWords := by
  intro i s t x hwf h hx
  obtain ⟨a, vs, hwords, hin, hmem⟩ := exec_storesOnly h
  rw [hmem]
  refine byteAt_putWords hwf hin fun k hk => hx _ ?_
  rw [hwords]
  exact List.mem_map_of_mem (List.mem_range.mpr hk)

theorem exec_len {i : Instr} {s t : State} (h : exec i s = .next t) : t.mem.len = s.mem.len := by
  obtain ⟨a, vs, -, -, hmem⟩ := exec_storesOnly h
  rw [hmem, len_putWords]

theorem fetchU8_mem {s t : State} {b : Byte} (h : fetchU8 s = .ok (b, t)) : t.mem = s.mem := by
  rw [fetchU8_eq] at h
  split at h <;> cases h
  rfl

theorem fetchField_mem {f : OperandField} {s t : State} {bs : List Byte} (h : fetchField f s = .ok (bs, t)) :
    t.mem = s.mem := by
  rw [fetchField_eq] at h
  split at h <;> cases h
  rfl

theorem fetchFields_mem {fs : List OperandField} {s t : State} {bs : List Byte} (h : fetchFields fs s = .ok (bs, t)) :
    t.mem = s.mem := by
  induction fs generalizing s bs with
  | nil =>
    cases h
    rfl
  | cons f fs ih =>
    simp only [fetchFields, bind_eq_ok] at h
    obtain ⟨⟨b1, s1⟩, h1, ⟨b2, s2⟩, h2, heq⟩ := h
    cases heq
    exact (ih h2).trans (fetchField_mem h1)

/-- The fetch half of a step leaves memory as it is, in a memory of any length. -/
theorem fetchInstr_mem {s t : State} {i : Instr} (h : fetchInstr s = .ok (i, t)) : t.mem = s.mem := by
  simp only [fetchInstr, bind_eq_ok] at h
  obtain ⟨⟨op, s1⟩, hop, h⟩ := h
  split at h
  · cases h
  · obtain ⟨⟨operands, s2⟩, hfields, h⟩ := bind_eq_ok.mp h
    dsimp only at h
    split at h <;> cases h
    exact (fetchFields_mem hfields).trans (fetchU8_mem hop)

/-- Settles O14: the fetch keeps memory, and the instruction only puts words in it. -/
theorem stepNeverResizesMemory : Obligations.StepNeverResizesMemory := by
  intro s t h
  obtain ⟨-, rfl⟩ | ⟨-, i, u, hfetch, hexec⟩ := step_next h
  · rfl
  · rw [exec_len hexec, fetchInstr_mem hfetch]

/-! ### What completes: one lemma per instruction that can set IP -/

theorem exec_movLitReg_ok (v : Word) {reg : Byte} {r : Reg} (s : State) (hr : Reg.ofIndex reg = some r) :
    exec (.movLitReg v reg) s = .next (s.setReg r v) := by
  simp [exec, execMovLitReg, writeIndex_ok v s hr]

theorem exec_movRegReg_ok {src dst : Byte} {q r : Reg} (s : State) (hq : Reg.ofIndex src = some q)
    (hr : Reg.ofIndex dst = some r) : exec (.movRegReg src dst) s = .next (s.setReg r (s.reg q)) := by
  simp [exec, execMovRegReg, readIndex_ok s hq, writeIndex_ok _ s hr]

theorem exec_movMemReg_ok {addr : Word} {reg : Byte} {r : Reg} {s : State} (hin : addr.toNat + 1 < s.mem.len)
    (hr : Reg.ofIndex reg = some r) :
    exec (.movMemReg addr reg) s = .next (s.setReg r (s.mem.wordAt addr.toNat)) := by
  simp [exec, execMovMemReg, readU16_ok hin, writeIndex_ok _ s hr]

theorem exec_jmpNotEq_taken {literal : Word} (addr : Word) {s : State} (h : literal ≠ s.reg .acc) :
    exec (.jmpNotEq literal addr) s = .next (s.setReg .ip addr) := by
  simp [exec, execJmpNotEq, branchTaken, h]

theorem exec_pop_ok {reg : Byte} {r : Reg} {s : State} (hin : (s.reg .sp + 2).toNat + 1 < s.mem.len)
    (hr : Reg.ofIndex reg = some r) :
    exec (.pop reg) s =
      .next (((s.setReg .sp (s.reg .sp + 2)).setSfs (s.sfs - 2)).setReg r (s.mem.wordAt (s.reg .sp + 2).toNat)) := by
  have hpop : pop s = .ok (s.mem.wordAt (s.reg .sp + 2).toNat, (s.setReg .sp (s.reg .sp + 2)).setSfs (s.sfs - 2)) := by
    rw [pop_eq, if_neg (Nat.not_le.mpr hin)]
  simp only [exec, execPop, hpop, ok_bind, writeIndex_ok _ _ hr, conclude_ok]

theorem exec_calLit_ok (addr : Word) {s u : State} (hu : pushState s = .ok u) :
    exec (.calLit addr) s = .next (u.setReg .ip addr) := by
  simp [exec, execCalLit, hu]

theorem exec_calReg_ok {reg : Byte} {r : Reg} {s u : State} (hr : Reg.ofIndex reg = some r)
    (hu : pushState s = .ok u) : exec (.calReg reg) s = .next (u.setReg .ip (s.reg r)) := by
  simp [exec, execCalReg, readIndex_ok s hr, hu]

theorem exec_ret_ok {s t : State} (ht : popState s = .ok t) : exec .ret s = .next t := by
  simp [exec, execRet, ht]

/-! ### A target outside memory -/

/-- The opcode fetch outside memory faults, whatever the length of memory (R58, R87). -/
theorem step_fault_of_ip_outside {s : State} (hs : s.status = .running) (hip : s.mem.len ≤ (s.reg .ip).toNat) :
    step s = .fault .addressOutOfRange := by
  have hfetch : fetchInstr s = .error .addressOutOfRange := by
    simp [fetchInstr, fetchU8_eq, hip]
  rw [step_running hs, hfetch]

/-- R38, for any instruction but HALT: a target outside memory in IP is no fault of the instruction that left it there. -/
theorem jumpsThenFaults_of_exec {i : Instr} {target : Word} {s t : State} (hs : s.status = .running)
    (htarget : s.mem.len ≤ target.toNat) (hi : i ≠ .halt) (h : exec i s = .next t) (hip : t.reg .ip = target) :
    jumpsThenFaults i target s := by
  have hrunning : t.status = .running := ((exec_frame h).status hi).trans hs
  have houtside : t.mem.len ≤ (t.reg .ip).toNat := by
    rw [exec_len h, hip]
    exact htarget
  exact ⟨t, h, hip, step_fault_of_ip_outside hrunning houtside⟩

/-- Settles O29: each instruction completes with IP at the target, and then `jumpsThenFaults_of_exec`. -/
theorem badTargetFaultsAtNextFetch : Obligations.BadTargetFaultsAtNextFetch := by
  intro s target hs htarget
  have faults : ∀ {i t}, i ≠ .halt → exec i s = .next t → t.reg .ip = target → jumpsThenFaults i target s :=
    jumpsThenFaults_of_exec hs htarget
  have hzero : Reg.ofIndex 0 = some .ip := rfl
  refine ⟨?jmpNotEq, ?movLitReg, ?movRegReg, ?movMemReg, ?pop, ?calLit, ?calReg, ?ret⟩
  case jmpNotEq => exact fun literal hne => faults nofun (exec_jmpNotEq_taken target hne) rfl
  case movLitReg => exact faults nofun (exec_movLitReg_ok target s hzero) rfl
  case movRegReg => exact fun src q hq hv => faults nofun (exec_movRegReg_ok s hq hzero) hv
  case movMemReg => exact fun addr hin hv => faults nofun (exec_movMemReg_ok hin hzero) hv
  case pop => exact fun hin hv => faults nofun (exec_pop_ok hin hzero) hv
  case calLit =>
    intro hin
    obtain ⟨u, hu, -⟩ := pushState_ok s hin
    exact faults nofun (exec_calLit_ok target hu) rfl
  case calReg =>
    intro reg r hr hv hin
    obtain ⟨u, hu, -⟩ := pushState_ok s hin
    exact faults nofun (exec_calReg_ok hr hu) hv
  case ret =>
    intro hin hv
    obtain ⟨t, ht, -, -, -, -, -, -, hip, -⟩ := popState_ok s hin
    exact faults nofun (exec_ret_ok ht) (hip.trans hv)

end Sys2Proof.Machine

/-! Proofs of the encoding family (spec/30_encoding.md): the decoder and the encoder undo each other, the opcode map is
the table of R52, and UnknownOpcode is raised for the bytes of R53 and for nothing else. -/

namespace Sys2Proof

/-! ### Decode after encode -/

@[simp] theorem decode_byte_cons (o : Opcode) (bytes : List Byte) :
    decode (o.byte :: bytes) = decodeOperands o bytes := by
  simp [decode]

/-- The operand bytes of an instruction decode to it under its own row: words come back from their two bytes by
`combine_split`. -/
theorem decodeOperands_encodeOperands (i : Instr) (rest : List Byte) :
    decodeOperands i.opcode (encodeOperands i ++ rest) = .ok (i, rest) := by
  cases i <;> simp [Instr.opcode, encodeOperands, decodeOperands]

theorem decode_encode (i : Instr) (rest : List Byte) : decode (encode i ++ rest) = .ok (i, rest) :=
  calc decode (encode i ++ rest)
      = decodeOperands i.opcode (encodeOperands i ++ rest) := decode_byte_cons i.opcode _
    _ = .ok (i, rest) := decodeOperands_encodeOperands i rest

/-- Settles O1: the opcode byte selects the instruction's own row, and that row reads its operands back. -/
theorem decodeOfEncodeIsTheInstruction : Obligations.DecodeOfEncodeIsTheInstruction :=
  decode_encode

/-! ### Encode after decode -/

/-- Whatever a row decodes, the bytes it took are the operand bytes of the instruction it gave: the two bytes of a word
come back by `hiByte_combine` and `loByte_combine`. -/
theorem decodeOperands_ok {o : Opcode} {bytes rest : List Byte} {i : Instr}
    (h : decodeOperands o bytes = .ok (i, rest)) : bytes = encodeOperands i ++ rest := by
  cases o
  case ret | halt =>
    cases h
    rfl
  case pshReg | pop | calReg =>
    match bytes, h with
    | _ :: _, h => cases h; rfl
  case movRegReg | addRegReg =>
    match bytes, h with
    | _ :: _ :: _, h => cases h; rfl
  case pshLit | calLit =>
    match bytes, h with
    | _ :: _ :: _, h => cases h; simp [encodeOperands]
  case movLitReg | movMemReg | movRegMem =>
    match bytes, h with
    | _ :: _ :: _ :: _, h => cases h; simp [encodeOperands]
  case jmpNotEq =>
    match bytes, h with
    | _ :: _ :: _ :: _ :: _, h => cases h; simp [encodeOperands]

/-- Settles O2: a decoding has its row's opcode byte in front, and that row took exactly the operand bytes. -/
theorem decodedBytesAreTheEncoding : Obligations.DecodedBytesAreTheEncoding := by
  intro bytes rest i h
  cases bytes with
  | nil => cases h
  | cons op tail =>
    obtain ⟨hop, hoperands⟩ := decode_ok_opcode h
    rw [hop, decodeOperands_ok hoperands]
    rfl

/-! ### The opcode map -/

theorem Opcode.ofByte_eq_none_iff_notMem {b : Byte} : Opcode.ofByte b = none ↔ b ∉ Opcode.all.map Opcode.byte := by
  simp [Opcode.ofByte_eq_none]

theorem decode_unknownOpcode {op : Byte} (rest : List Byte) (h : Opcode.ofByte op = none) :
    decode (op :: rest) = .error (.unknownOpcode op) := by
  simp [decode, h]

/-- The bytes that spell no row are the 243 values of R53, as ranges. -/
theorem Opcode.ofByte_eq_none_iff_ranges {b : Byte} :
    Opcode.ofByte b = none ↔ b.toNat ≤ 0x0F ∨ b.toNat = 0x16 ∨ b.toNat = 0x19 ∨
      (0x1B ≤ b.toNat ∧ b.toNat ≤ 0x5D) ∨ (0x61 ≤ b.toNat ∧ b.toNat ≤ 0xFE) := by
  have hlt : b.toNat < 256 := b.isLt
  simp only [Opcode.ofByte_eq_none_iff_notMem, Opcode.all, List.map, Opcode.byte, List.mem_cons,
    List.not_mem_nil, or_false, ← BitVec.toNat_inj, BitVec.ofNat_eq_ofNat, BitVec.reduceToNat]
  omega

/-- Settles O3: each word is the encoding of its instruction, so it decodes to it. -/
theorem sampleWordsDecode : Obligations.SampleWordsDecode :=
  ⟨decode_encode (.movLitReg 0x1234 2) [], decode_encode (.movRegReg 2 3) [], decode_encode (.movRegMem 1 0x0080) [],
    decode_encode (.jmpNotEq 0x0005 0x1234) [], decode_encode (.pshLit 0x3344) [], decode_encode (.pop 4) [],
    decode_encode .ret []⟩

/-- Settles O4: each byte of the table selects its row, whose operands are then read by definition; a byte outside the
table is the byte of no row. -/
theorem opcodeMapIsTheTable : Obligations.OpcodeMapIsTheTable := by
  refine ⟨fun a b c d rest => ?rows, fun op rest hop => ?others⟩
  case rows =>
    exact ⟨decode_byte_cons .movLitReg _, decode_byte_cons .movRegReg _, decode_byte_cons .movRegMem _,
      decode_byte_cons .movMemReg _, decode_byte_cons .addRegReg _, decode_byte_cons .jmpNotEq _,
      decode_byte_cons .pshLit _, decode_byte_cons .pshReg _, decode_byte_cons .pop _, decode_byte_cons .calLit _,
      decode_byte_cons .calReg _, decode_byte_cons .ret _, decode_byte_cons .halt _⟩
  case others => exact decode_unknownOpcode rest (Opcode.ofByte_eq_none_iff_notMem.mpr hop)

end Sys2Proof

namespace Sys2Proof.Machine

/-! ### What an instruction can raise -/

/-- The only kind that the operation can raise is AddressOutOfRange (R87). -/
def RaisesOnlyAddress {α : Type} (x : Except Fault α) : Prop := ∀ k, x = .error k → k = .addressOutOfRange

theorem RaisesOnlyAddress.ok {α : Type} (a : α) : RaisesOnlyAddress (.ok a) := nofun

theorem RaisesOnlyAddress.bind {α β : Type} {x : Except Fault α} {f : α → Except Fault β} (hx : RaisesOnlyAddress x)
    (hf : ∀ a, RaisesOnlyAddress (f a)) : RaisesOnlyAddress (x >>= f) := by
  cases x with
  | ok a => exact hf a
  | error k =>
    intro j h
    cases h
    exact hx k rfl

theorem RaisesOnlyAddress.raise {α : Type} : RaisesOnlyAddress (raise .addressOutOfRange : Except Fault α) := by
  intro k h
  cases h
  rfl

/-- The shape of every bounds check of memory. -/
theorem RaisesOnlyAddress.check {α : Type} (c : Prop) [Decidable c] (a : α) :
    RaisesOnlyAddress (if c then Machine.raise .addressOutOfRange else .ok a) := by
  split
  · exact .raise
  · exact .ok a

theorem readU16_raises (a : Word) (s : State) : RaisesOnlyAddress (readU16 a s) := .check _ _

theorem writeU16_raises (a w : Word) (s : State) : RaisesOnlyAddress (writeU16 a w s) := .check _ _

theorem readIndex_raises (i : Byte) (s : State) : RaisesOnlyAddress (readIndex i s) := by
  unfold readIndex
  split
  · exact .ok _
  · exact .raise

theorem writeIndex_raises (i : Byte) (v : Word) (s : State) : RaisesOnlyAddress (writeIndex i v s) := by
  unfold writeIndex
  split
  · exact .ok _
  · exact .raise

theorem push_raises (v : Word) (s : State) : RaisesOnlyAddress (push v s) := fun _ => push_error

theorem pop_raises (s : State) : RaisesOnlyAddress (pop s) := fun _ => pop_error

theorem pushRegs_raises (rs : List Reg) (s : State) : RaisesOnlyAddress (pushRegs rs s) := by
  induction rs generalizing s with
  | nil => exact .ok s
  | cons r rs ih => exact (push_raises (s.reg r) s).bind ih

theorem popRegs_raises (rs : List Reg) (s : State) : RaisesOnlyAddress (popRegs rs s) := by
  induction rs generalizing s with
  | nil => exact .ok s
  | cons r rs ih => exact (pop_raises s).bind fun (v, s1) => ih (s1.setReg r v)

theorem discard_raises (n : Nat) (s : State) : RaisesOnlyAddress (discard n s) := by
  induction n generalizing s with
  | zero => exact .ok s
  | succ n ih => exact (pop_raises s).bind fun (_, s1) => ih s1

theorem pushState_raises (s : State) : RaisesOnlyAddress (pushState s) :=
  (pushRegs_raises savedRegs s).bind fun s1 =>
    (push_raises (s1.reg .ip) s1).bind fun s2 => (push_raises (s2.sfs + 2) s2).bind fun _ => .ok _

theorem popState_raises (s : State) : RaisesOnlyAddress (popState s) :=
  (pop_raises (s.setReg .sp (s.reg .fp))).bind fun (m, s1) =>
    (pop_raises (s1.setSfs m)).bind fun (ret, s2) =>
      (popRegs_raises savedRegs.reverse (s2.setReg .ip ret)).bind fun s3 =>
        (pop_raises s3).bind fun (n, s4) => (discard_raises n.toNat s4).bind fun _ => .ok _

/-- Every check an instruction makes in its own work is a bounds check of memory or of a register index (R87). -/
theorem exec_fault {i : Instr} {s : State} {k : Fault} (h : exec i s = .fault k) : k = .addressOutOfRange := by
  have raises : ∀ {x : Except Fault State}, exec i s = conclude x → RaisesOnlyAddress x → k = .addressOutOfRange :=
    fun hx hr => hr k (conclude_eq_fault.mp (hx.symm.trans h))
  cases i with
  | movLitReg v reg => exact raises rfl (writeIndex_raises reg v s)
  | movRegReg src dst => exact raises rfl ((readIndex_raises src s).bind fun v => writeIndex_raises dst v s)
  | movRegMem reg addr => exact raises rfl ((readIndex_raises reg s).bind fun v => writeU16_raises addr v s)
  | movMemReg addr reg => exact raises rfl ((readU16_raises addr s).bind fun v => writeIndex_raises reg v s)
  | addRegReg a b => exact raises rfl ((readIndex_raises a s).bind fun _ => (readIndex_raises b s).bind fun _ => .ok _)
  | jmpNotEq v addr => exact raises rfl (.ok _)
  | pshLit v => exact raises rfl (push_raises v s)
  | pshReg reg => exact raises rfl ((readIndex_raises reg s).bind fun v => push_raises v s)
  | pop reg => exact raises rfl ((pop_raises s).bind fun (v, s1) => writeIndex_raises reg v s1)
  | calLit addr => exact raises rfl ((pushState_raises s).bind fun _ => .ok _)
  | calReg reg => exact raises rfl ((readIndex_raises reg s).bind fun _ => (pushState_raises s).bind fun _ => .ok _)
  | ret => exact raises rfl (popState_raises s)
  | halt => exact raises rfl (.ok _)

theorem exec_ne_unknownOpcode (i : Instr) (s : State) : exec i s ≠ .fault .unknownOpcode :=
  fun h => nomatch exec_fault h

/-! ### UnknownOpcode -/

/-- The fetch raises UnknownOpcode exactly for a byte in memory that spells no row (R63, R88). -/
theorem fetchInstr_eq_unknownOpcode {s : State} (hlen : s.mem.len ≤ 65535) :
    fetchInstr s = .error .unknownOpcode ↔
      (s.reg .ip).toNat < s.mem.len ∧ Opcode.ofByte (s.mem.byteAt (s.reg .ip).toNat) = none := by
  constructor
  · intro h
    obtain ⟨-, hf⟩ | ⟨hin, hnone, -⟩ | ⟨_, -, -, -, hf⟩ | ⟨_, -, -, hf⟩ := fetchInstr_cases s hlen
    · cases hf.symm.trans h
    · exact ⟨hin, hnone⟩
    · cases hf.symm.trans h
    · cases hf.symm.trans h
  · rintro ⟨hin, hnone⟩
    simp [fetchInstr, fetchU8_eq, Nat.not_le.mpr hin, hnone]

/-- A step of a running machine raises UnknownOpcode in its fetch or not at all. -/
theorem step_eq_unknownOpcode {s : State} (hs : s.status = .running) :
    step s = .fault .unknownOpcode ↔ fetchInstr s = .error .unknownOpcode := by
  rw [step_running hs]
  cases fetchInstr s with
  | error k => simp
  | ok p => simpa using exec_ne_unknownOpcode p.1 p.2

/-- Settles O8: only the fetch raises UnknownOpcode, and it does so for the bytes that spell no row, the 243 of R53. -/
theorem unknownOpcodeExactlyOnIllegalBytes : Obligations.UnknownOpcodeExactlyOnIllegalBytes := by
  refine ⟨fun s hlen hs => ?_, exec_ne_unknownOpcode⟩
  obtain ⟨-, hmax⟩ := hlen
  rw [step_eq_unknownOpcode hs, fetchInstr_eq_unknownOpcode hmax, Opcode.ofByte_eq_none_iff_ranges]

end Sys2Proof.Machine

/-! Proofs of the fetch and dispatch family (spec/40_fetch_dispatch.md): the fetch primitives, what a step runs, HALT, a
source operand IP, the STEP transaction, and the outcomes of a run. -/

namespace Sys2Proof.Machine

/-! ### The fetch primitives -/

/-- Settles O6: each primitive is its bounds check, and then the read and the advance of IP. -/
theorem fetchPrimitivesReadAtIp : Obligations.FetchPrimitivesReadAtIp := by
  intro s
  refine ⟨fun hin => ?_, fun hout => ?_, fun hin => ?_, fun hout => ?_⟩
  · rw [fetchU8_eq, if_neg (Nat.not_le.mpr hin)]
  · rw [fetchU8_eq, if_pos hout]
  · rw [fetchU16_eq, if_neg (Nat.not_le.mpr hin), Memory.wordAt]
  · rw [fetchU16_eq, if_pos hout]

/-! ### The step and the bytes at IP -/

/-- The first byte of what decodes at an address is the opcode byte of the instruction's row. -/
theorem ofByte_of_decode_bytesFrom {m : Memory} {a : Nat} {i : Instr} {rest : List Byte}
    (h : decode (m.bytesFrom a i.length) = .ok (i, rest)) : Opcode.ofByte (m.byteAt a) = some i.opcode := by
  have hcons : m.bytesFrom a i.length = m.byteAt a :: m.bytesFrom (a + 1) (fieldsSize i.opcode.format.fields) := by
    rw [Instr.length, Opcode.length, Nat.add_comm]
    rfl
  rw [hcons] at h
  exact Opcode.ofByte_eq_some.mpr (decode_ok_opcode h).1.symm

/-- The opcode byte fixes the length (R55), so the fetch takes just the bytes that decode (R61, R62). -/
theorem fetchInstr_of_decode {s : State} {i : Instr} (hlen : s.mem.len ≤ 65535)
    (hin : (s.reg .ip).toNat + i.length ≤ s.mem.len)
    (hdec : decode (s.mem.bytesFrom (s.reg .ip).toNat i.length) = .ok (i, [])) :
    fetchInstr s = .ok (i, s.setReg .ip (s.reg .ip + BitVec.ofNat 16 i.length)) := by
  have hop := ofByte_of_decode_bytesFrom hdec
  have hpos : 1 ≤ i.length := Opcode.length_pos i.opcode
  obtain ⟨hout, -⟩ | ⟨-, hnone, -⟩ | ⟨o, -, ho, hcut, -⟩ | ⟨j, -, hj, hfetch⟩ := fetchInstr_cases s hlen
  · omega
  · cases hop.symm.trans hnone
  · obtain rfl : i.opcode = o := Option.some.inj (hop.symm.trans ho)
    exact absurd hin (Nat.not_le.mpr hcut)
  · have hrow : i.opcode = j.opcode := Option.some.inj (hop.symm.trans (ofByte_of_decode_bytesFrom hj))
    have hsize : i.length = j.length := congrArg Opcode.length hrow
    rw [hsize, hj] at hdec
    cases hdec
    exact hfetch

/-- A row whose operand bytes pass the end of memory is not fetched (R87). -/
theorem fetchInstr_truncated {s : State} {o : Opcode} (hlen : s.mem.len ≤ 65535)
    (ho : Opcode.ofByte (s.mem.byteAt (s.reg .ip).toNat) = some o) (hcut : s.mem.len < (s.reg .ip).toNat + o.length) :
    fetchInstr s = .error .addressOutOfRange := by
  obtain ⟨-, hfetch⟩ | ⟨-, hnone, -⟩ | ⟨-, -, -, -, hfetch⟩ | ⟨j, hin, hj, -⟩ := fetchInstr_cases s hlen
  · exact hfetch
  · cases ho.symm.trans hnone
  · exact hfetch
  · obtain rfl : o = j.opcode := Option.some.inj (ho.symm.trans (ofByte_of_decode_bytesFrom hj))
    exact absurd hin (Nat.not_le.mpr hcut)

/-- Settles O5: the step's fetch succeeds with the instruction that the bytes decode to. -/
theorem stepRunsTheDecodedInstruction : Obligations.StepRunsTheDecodedInstruction := by
  rintro s i ⟨-, hlen⟩ hs hin hdec
  rw [step_running hs, fetchInstr_of_decode hlen hin hdec]

/-- The same step, for bytes that are given as the instruction's encoding. -/
theorem step_of_encode {s : State} {bytes : List Byte} (i : Instr) (hi : encode i = bytes)
    (hlen : Config.memLenOk s.mem.len) (hs : s.status = .running)
    (hin : (s.reg .ip).toNat + bytes.length ≤ s.mem.len)
    (hbytes : s.mem.bytesFrom (s.reg .ip).toNat bytes.length = bytes) :
    step s = exec i (s.setReg .ip (s.reg .ip + BitVec.ofNat 16 bytes.length)) := by
  subst hi
  rw [encode_length] at hin hbytes ⊢
  refine stepRunsTheDecodedInstruction s i hlen hs hin ?_
  rw [hbytes]
  simpa using decode_encode i []

/-- Every instruction is fetched as its encoding: the part that R64 and the rules R66 to R84 have in common. -/
theorem fetchesAs_of_encode {i : Instr} {bytes : List Byte} (hi : encode i = bytes) (s : State) :
    fetchesAs i bytes s := by
  refine ⟨hi, fun hlen hs => ⟨step_of_encode i hi hlen hs, fun _ hhead hcut => ?_⟩⟩
  subst hi
  have hop : Opcode.ofByte (s.mem.byteAt (s.reg .ip).toNat) = some i.opcode :=
    Opcode.ofByte_eq_some.mpr (Option.some.inj hhead)
  rw [encode_length] at hcut
  rw [step_running hs, fetchInstr_truncated hlen.2 hop hcut]

/-- Settles O31: HALT's own work is the write of the status, and its encoding is the one byte of its row. -/
theorem haltResult : Obligations.HaltResult :=
  fun s => ⟨rfl, fetchesAs_of_encode rfl s⟩

/-! ### A source operand of index 0 -/

theorem exec_movRegMem_ok {reg : Byte} {r : Reg} {addr : Word} {s : State} (hr : Reg.ofIndex reg = some r)
    (hin : addr.toNat + 1 < s.mem.len) :
    exec (.movRegMem reg addr) s = .next (s.setMem (s.mem.putWord addr.toNat (s.reg r))) := by
  simp [exec, execMovRegMem, readIndex_ok s hr, writeU16_ok hin]

theorem add16_eq_add (a b : Word) : add16 a b = a + b := by
  simp [add16, BitVec.ofNat_add]

theorem exec_addRegReg_ok {a b : Byte} {q r : Reg} (s : State) (hq : Reg.ofIndex a = some q)
    (hr : Reg.ofIndex b = some r) : exec (.addRegReg a b) s = .next (s.setReg .acc (s.reg q + s.reg r)) := by
  simp [exec, execAddRegReg, readIndex_ok s hq, readIndex_ok s hr, add16_eq_add]

theorem exec_pshReg_ok {reg : Byte} {r : Reg} {s : State} (hr : Reg.ofIndex reg = some r)
    (hin : (s.reg .sp).toNat + 1 < s.mem.len) :
    exec (.pshReg reg) s =
      .next (((s.setMem (s.mem.putWord (s.reg .sp).toNat (s.reg r))).setSfs (s.sfs + 2)).setReg .sp
        (s.reg .sp - 2)) := by
  simp [exec, execPshReg, readIndex_ok s hr, push_eq, Nat.not_le.mpr hin]

/-- The return address is the ninth word of the frame (R79). -/
theorem pushState_returnAddress {s u : State} (h : pushState s = .ok u) (hwf : s.mem.wf = true) :
    u.mem.wordAt (pushSlot (s.reg .sp) 8).toNat = s.reg .ip := by
  obtain ⟨hin, hmem, -⟩ := pushState_eq_ok h
  rw [hmem]
  exact wordAt_putWords (vs := frameWords s) hwf (by simp [frameWords_length]) hin 8 (by simp [frameWords_length])

/-- Settles O30: in each form the step is `exec` with IP past the bytes, and `exec` reads register IP there. -/
theorem sourceIpIsTheNextAddress : Obligations.SourceIpIsTheNextAddress := by
  rintro s ⟨hlen, hwf⟩ hs
  have hzero : Reg.ofIndex 0 = some .ip := rfl
  refine ⟨?movRegReg, ?movRegMem, ?addLeft, ?addRight, ?pshReg, ?calReg⟩
  case movRegReg =>
    intro dst r hin hbytes hr
    have hstep : step s = exec (.movRegReg 0 dst) (s.setReg .ip (s.reg .ip + 3)) :=
      step_of_encode _ rfl hlen hs hin hbytes
    rw [hstep, exec_movRegReg_ok _ hzero hr, State.reg_setReg, if_pos rfl]
  case movRegMem =>
    intro addr hin hbytes haddr
    have hstep : step s = exec (.movRegMem 0 addr) (s.setReg .ip (s.reg .ip + 4)) :=
      step_of_encode _ rfl hlen hs hin hbytes
    exact ⟨_, hstep.trans (exec_movRegMem_ok hzero haddr), Memory.wordAt_putWord hwf haddr _, rfl⟩
  case addLeft =>
    intro b r hin hbytes hr
    have hstep : step s = exec (.addRegReg 0 b) (s.setReg .ip (s.reg .ip + 3)) :=
      step_of_encode _ rfl hlen hs hin hbytes
    exact ⟨_, hstep.trans (exec_addRegReg_ok _ hzero hr), rfl, by simp⟩
  case addRight =>
    intro a r hin hbytes hr
    have hstep : step s = exec (.addRegReg a 0) (s.setReg .ip (s.reg .ip + 3)) :=
      step_of_encode _ rfl hlen hs hin hbytes
    exact ⟨_, hstep.trans (exec_addRegReg_ok _ hr hzero), rfl, by simp⟩
  case pshReg =>
    intro hin hbytes hsp
    have hstep : step s = exec (.pshReg 0) (s.setReg .ip (s.reg .ip + 2)) :=
      step_of_encode _ rfl hlen hs hin hbytes
    exact ⟨_, hstep.trans (exec_pshReg_ok hzero hsp), Memory.wordAt_putWord hwf hsp _, rfl⟩
  case calReg =>
    intro hin hbytes hcall
    have hstep : step s = exec (.calReg 0) (s.setReg .ip (s.reg .ip + 2)) :=
      step_of_encode _ rfl hlen hs hin hbytes
    obtain ⟨u, hu, -⟩ := pushState_ok (s.setReg .ip (s.reg .ip + 2)) hcall
    exact ⟨_, hstep.trans (exec_calReg_ok hzero hu), rfl, pushState_returnAddress hu hwf⟩

/-! ### The terminal statuses -/

theorem step_halted {s : State} (h : s.status = .halted) : step s = .next s := by
  simp [step, h]

theorem step_faulted {s : State} {k : Fault} (h : s.status = .faulted k) : step s = .fault k := by
  simp [step, h]

/-- Settles O9: the two terminal arms of `step`. -/
theorem stepOutsideRunningDoesNothing : Obligations.StepOutsideRunningDoesNothing :=
  fun _ => ⟨step_halted, fun _ => step_faulted⟩

/-! ### The STEP transaction -/

theorem resultOf_eq_halted {s : State} : resultOf s = .halted ↔ s.status = .halted := by
  unfold resultOf
  split <;> simp [*]

theorem resultOf_eq_running {s : State} : resultOf s = .running ↔ s.status = .running := by
  unfold resultOf
  split <;> simp [*]

theorem stepTransaction_next {s t : State} (hs : s.status = .running) (h : step s = .next t) :
    stepTransaction s = (t, resultOf t) := by
  simp [stepTransaction, hs, h]

theorem stepTransaction_fault {s : State} {k : Fault} (hs : s.status = .running) (h : step s = .fault k) :
    stepTransaction s = (faultedState k s, .faulted k) := by
  simp [stepTransaction, hs, h]

theorem stepTransaction_halted {s : State} (hs : s.status = .halted) : stepTransaction s = (s, .halted) := by
  simp [stepTransaction, hs]

theorem stepTransaction_faulted {s : State} {k : Fault} (hs : s.status = .faulted k) :
    stepTransaction s = (s, .faulted k) := by
  simp [stepTransaction, hs]

@[simp] theorem faultedState_status (k : Fault) (s : State) : (faultedState k s).status = .faulted k := rfl

/-- The contents of a faulted state are free (R91), but not its length. -/
@[simp] theorem faultedState_len (k : Fault) (s : State) : (faultedState k s).mem.len = s.mem.len :=
  Memory.len_ofBytes _ _

/-- Settles O50: one equation per status and outcome; after a fault the status is the terminal Faulted. -/
theorem stepTransactionFollowsTheStatus : Obligations.StepTransactionFollowsTheStatus := by
  intro s
  refine ⟨fun t hs h => ?next, fun k hs h => ?fault, stepTransaction_halted, fun k => stepTransaction_faulted⟩
  case next =>
    rw [stepTransaction_next hs h]
    exact ⟨rfl, resultOf_eq_halted, resultOf_eq_running⟩
  case fault =>
    rw [stepTransaction_fault hs h]
    exact ⟨rfl, faultedState_len k s, rfl, stepTransaction_faulted rfl⟩

/-! ### The outcomes of a run -/

theorem run_succ_of_next {n : Nat} {s u : State} (h : step s = .next u) : run (n + 1) s = run n u := by
  rw [run_succ, h]

theorem run_succ_of_fault {n : Nat} {s : State} {k : Fault} (h : step s = .fault k) : run (n + 1) s = .fault k := by
  rw [run_succ, h]

/-- No step is refused, so these are its two answers. -/
theorem step_next_or_fault (s : State) : (∃ t, step s = .next t) ∨ ∃ k, step s = .fault k := by
  cases h : step s with
  | next t => exact .inl ⟨t, rfl⟩
  | fault k => exact .inr ⟨k, rfl⟩
  | refused r => exact absurd h (step_ne_refused s r)

theorem run_ne_refused (n : Nat) (s : State) (r : Refusal) : run n s ≠ .refused r := by
  induction n generalizing s with
  | zero => nofun
  | succ n ih =>
    obtain ⟨u, hstep⟩ | ⟨k, hstep⟩ := step_next_or_fault s
    · rw [run_succ_of_next hstep]
      exact ih u
    · rw [run_succ_of_fault hstep]
      nofun

theorem run_add_of_next {n : Nat} (m : Nat) {s t : State} (h : run n s = .next t) : run (n + m) s = run m t := by
  induction n generalizing s with
  | zero =>
    cases h
    rw [Nat.zero_add]
  | succ n ih =>
    rw [Nat.add_right_comm]
    obtain ⟨u, hstep⟩ | ⟨k, hstep⟩ := step_next_or_fault s
    · rw [run_succ_of_next hstep] at h ⊢
      exact ih h
    · cases (run_succ_of_fault hstep).symm.trans h

/-- A run that has faulted stays so, however many steps more are asked of it. -/
theorem run_add_of_fault {n : Nat} (m : Nat) {s : State} {k : Fault} (h : run n s = .fault k) :
    run (n + m) s = .fault k := by
  induction n generalizing s with
  | zero => cases h
  | succ n ih =>
    rw [Nat.add_right_comm]
    obtain ⟨u, hstep⟩ | ⟨j, hstep⟩ := step_next_or_fault s
    · rw [run_succ_of_next hstep] at h ⊢
      exact ih h
    · rw [run_succ_of_fault hstep] at h ⊢
      exact h

theorem run_halted (n : Nat) {s : State} (h : s.status = .halted) : run n s = .next s := by
  induction n with
  | zero => rfl
  | succ n ih => rw [run_succ_of_next (step_halted h), ih]

/-- A run that has ended stays in its final state. -/
theorem runEnds_stays {n : Nat} (m : Nat) {s t : State} (h : runEnds s n t) : run (n + m) s = .next t := by
  obtain ⟨hrun, hhalted⟩ := h
  rw [run_add_of_next m hrun, run_halted m hhalted]

/-- A run that neither ends nor faults is Running after every number of steps: a state Faulted would fault next. -/
theorem runDiverges_of_not {s : State} (hends : ¬ ∃ n t, runEnds s n t) (hfaults : ¬ ∃ n k, runFaults s n k) :
    runDiverges s := by
  intro n
  cases hrun : run n s with
  | next t =>
    refine ⟨t, rfl, ?_⟩
    cases hstatus : t.status with
    | running => rfl
    | halted => exact absurd ⟨n, t, hrun, hstatus⟩ hends
    | faulted k =>
      have hnext : run (n + 1) s = .fault k := by
        rw [run_add_of_next 1 hrun, run_succ_of_fault (step_faulted hstatus)]
      exact absurd ⟨n + 1, k, hnext⟩ hfaults
  | fault k => exact absurd ⟨n, k, hrun⟩ hfaults
  | refused r => exact absurd hrun (run_ne_refused n s r)

/-- Settles O52: `n + m` steps tell two outcomes apart, because an ended run and a faulted one both stay as they are. -/
theorem everyRunHasOneOutcome : Obligations.EveryRunHasOneOutcome := by
  intro s
  refine ⟨?some, ?endsNotFaults, ?endsNotDiverges, ?faultsNotDiverges, ?oneFinalState⟩
  case some =>
    exact or_iff_not_imp_left.mpr fun hends => or_iff_not_imp_left.mpr fun hfaults => runDiverges_of_not hends hfaults
  case endsNotFaults =>
    intro n t m k hends hfaults
    have hfault : run (m + n) s = .fault k := run_add_of_fault n hfaults
    rw [Nat.add_comm] at hfault
    cases hfault.symm.trans (runEnds_stays m hends)
  case endsNotDiverges =>
    rintro n t ⟨hrun, hhalted⟩ hdiverges
    obtain ⟨u, hu, hrunning⟩ := hdiverges n
    cases hrun.symm.trans hu
    cases hhalted.symm.trans hrunning
  case faultsNotDiverges =>
    intro n k hfault hdiverges
    obtain ⟨u, hu, -⟩ := hdiverges n
    cases hfault.symm.trans hu
  case oneFinalState =>
    intro n t m t' h h'
    have ht' := runEnds_stays n h'
    rw [Nat.add_comm] at ht'
    cases (runEnds_stays m h).symm.trans ht'
    rfl

end Sys2Proof.Machine

/-! Proofs of the move family (spec/41_move.md): each move completes with the one write of its rule, faults in every
other case, and is fetched as its encoding. -/

namespace Sys2Proof.Machine

/-! ### When an instruction faults -/

theorem Reg.lt_of_ofIndex {i : Byte} {r : Reg} (h : Reg.ofIndex i = some r) : i.toNat < 12 :=
  Reg.ofIndex_eq_some.mp h ▸ r.index_lt

/-- No arm of `exec` refuses, and a bounds check is all that an arm raises (R87). -/
theorem exec_fault_of_not_next {i : Instr} {s : State} (h : ∀ t, exec i s ≠ .next t) :
    exec i s = .fault .addressOutOfRange := by
  cases hexec : exec i s with
  | next t => exact absurd hexec (h t)
  | fault k => rw [exec_fault hexec]
  | refused r => exact absurd hexec (exec_ne_refused i s r)

/-! ### The faults of the moves -/

theorem exec_movLitReg_fault (literal : Word) {reg : Byte} (s : State) (hbad : 12 ≤ reg.toNat) :
    exec (.movLitReg literal reg) s = .fault .addressOutOfRange :=
  exec_fault_of_not_next fun _ ht => by
    obtain ⟨_, hr, -⟩ := execMovLitReg_next ht
    exact absurd (Reg.lt_of_ofIndex hr) (Nat.not_lt.mpr hbad)

theorem exec_movRegReg_fault {src dst : Byte} (s : State) (hbad : 12 ≤ src.toNat ∨ 12 ≤ dst.toNat) :
    exec (.movRegReg src dst) s = .fault .addressOutOfRange :=
  exec_fault_of_not_next fun _ ht => by
    obtain ⟨_, _, hq, hr, -⟩ := execMovRegReg_next ht
    have hsrc := Reg.lt_of_ofIndex hq
    have hdst := Reg.lt_of_ofIndex hr
    omega

theorem exec_movRegMem_fault {reg : Byte} {addr : Word} {s : State}
    (hbad : 12 ≤ reg.toNat ∨ s.mem.len ≤ addr.toNat + 1) :
    exec (.movRegMem reg addr) s = .fault .addressOutOfRange :=
  exec_fault_of_not_next fun _ ht => by
    obtain ⟨_, hr, hin, -⟩ := execMovRegMem_next ht
    have hreg := Reg.lt_of_ofIndex hr
    omega

theorem exec_movMemReg_fault {addr : Word} {reg : Byte} {s : State}
    (hbad : 12 ≤ reg.toNat ∨ s.mem.len ≤ addr.toNat + 1) :
    exec (.movMemReg addr reg) s = .fault .addressOutOfRange :=
  exec_fault_of_not_next fun _ ht => by
    obtain ⟨_, hr, hin, -⟩ := execMovMemReg_next ht
    have hreg := Reg.lt_of_ofIndex hr
    omega

/-! ### What each move does -/

/-- Settles O23: the write completes for every register, IP included, and the index is the one check of R66. -/
theorem movLitRegResult : Obligations.MovLitRegResult :=
  fun s literal _ =>
    ⟨fun _ hr => exec_movLitReg_ok literal s hr, exec_movLitReg_fault literal s, fetchesAs_of_encode rfl s⟩

/-- Settles O24: the value read first is the one written, so the result speaks of the state before the write. -/
theorem movRegRegResult : Obligations.MovRegRegResult :=
  fun s _ _ => ⟨fun _ _ hq hr => exec_movRegReg_ok s hq hr, exec_movRegReg_fault s, fetchesAs_of_encode rfl s⟩

/-- Settles O25: the bank is the old one with one word put, and the bytes of such a bank are those of
`Memory.byteAt_putWord`. -/
theorem movRegMemStoresTheWord : Obligations.MovRegMemStoresTheWord := by
  intro s reg addr
  refine ⟨fun r hwf hr hin => ?_, exec_movRegMem_fault, fetchesAs_of_encode rfl s⟩
  have hother : ∀ x, x ≠ addr.toNat → x ≠ addr.toNat + 1 →
      (s.mem.putWord addr.toNat (s.reg r)).byteAt x = s.mem.byteAt x := fun x hhigh hlow => by
    rw [Memory.byteAt_putWord hwf hin, if_neg hhigh, if_neg hlow]
  exact ⟨_, exec_movRegMem_ok hr hin, Memory.byteAt_putWord_high hwf hin _, Memory.byteAt_putWord_low hwf hin _,
    hother, rfl, fun _ => rfl, rfl, rfl⟩

/-- Settles O26: the word that R33 reads at the address is `combine` of its two bytes by definition. -/
theorem movMemRegResult : Obligations.MovMemRegResult :=
  fun s _ _ => ⟨fun _ hr hin => exec_movMemReg_ok hin hr, exec_movMemReg_fault, fetchesAs_of_encode rfl s⟩

end Sys2Proof.Machine

/-! Proofs of the arithmetic family (spec/42_alu.md): the addition completes with its one write to ACC, faults in every
other case, and is fetched as its encoding. -/

namespace Sys2Proof.Machine

theorem exec_addRegReg_fault {a b : Byte} (s : State) (hbad : 12 ≤ a.toNat ∨ 12 ≤ b.toNat) :
    exec (.addRegReg a b) s = .fault .addressOutOfRange :=
  exec_fault_of_not_next fun _ ht => by
    obtain ⟨_, _, hq, hr, -⟩ := execAddRegReg_next ht
    have ha := Reg.lt_of_ofIndex hq
    have hb := Reg.lt_of_ofIndex hr
    omega

/-- Settles O27: the state after is the old one with `s.reg q + s.reg r` in ACC, a sum of words, which drops the carry
out of bit 15 (R70). -/
theorem addRegRegWrapsIntoAcc : Obligations.AddRegRegWrapsIntoAcc := by
  intro s a b
  refine ⟨fun q r hq hr => ⟨_, exec_addRegReg_ok s hq hr, ?sum, ?others, rfl, rfl, rfl⟩, exec_addRegReg_fault s,
    fetchesAs_of_encode rfl s⟩
  case sum => rw [State.reg_setReg, if_pos rfl, BitVec.toNat_add]
  case others =>
    intro x hx
    rw [State.reg_setReg, if_neg hx]

end Sys2Proof.Machine

/-! Proofs of the branch family (spec/43_branch.md): the branch completes whether or not it is taken, leaves a bad target
to the next step, and is fetched as its encoding. -/

namespace Sys2Proof.Machine

/-- A branch that is not taken leaves IP after the instruction, where the fetch has put it (R72). -/
theorem exec_jmpNotEq_notTaken {literal : Word} (addr : Word) {s : State} (h : literal = s.reg .acc) :
    exec (.jmpNotEq literal addr) s = .next s := by
  simp [exec, execJmpNotEq, branchTaken, h]

/-- Settles O28: the two sides of the comparison are `exec_jmpNotEq_taken` and `exec_jmpNotEq_notTaken`; a bad target
is found by the opcode fetch of the next step, in the memory that the write of IP has kept. -/
theorem jmpNotEqResult : Obligations.JmpNotEqResult := by
  intro s literal addr
  refine ⟨exec_jmpNotEq_taken addr, exec_jmpNotEq_notTaken addr, ?badTarget, fetchesAs_of_encode rfl s⟩
  case badTarget =>
    intro hrunning houtside
    have hip : (s.setReg .ip addr).mem.len ≤ ((s.setReg .ip addr).reg .ip).toNat := by
      rwa [State.mem_setReg, State.reg_setReg, if_pos rfl]
    exact step_fault_of_ip_outside hrunning hip

end Sys2Proof.Machine

/-! Proofs of the stack family (spec/44_stack.md): a push stores at the old SP, a pop reads two bytes above SP, both fault
in every other case, and what a run of pushes has stored is popped in reverse. -/

namespace Sys2Proof.Machine

/-! ### A run of pushes, popped -/

/-- A run of pushes completes only when all its words lie in memory; this is then all it does (R73). -/
theorem pushWords_eq_ok {vs : List Word} {s t : State} (h : pushWords vs s = .ok t) :
    (∀ k, k < vs.length → wordInMemory (pushSlot (s.reg .sp) k) s) ∧
      t = ((s.setMem (putWords s.mem (s.reg .sp) vs)).setSfs (s.sfs + BitVec.ofNat 16 (2 * vs.length))).setReg .sp
        (pushSlot (s.reg .sp) vs.length) := by
  have hin : ∀ k, k < vs.length → wordInMemory (pushSlot (s.reg .sp) k) s := by
    intro k hk
    by_contra hout
    rw [pushWords_error vs s hk hout] at h
    cases h
  rw [pushWords_ok vs s hin] at h
  cases h
  exact ⟨hin, rfl⟩

/-- The last in, first out law of R75, one pop at a time: with SP where the first `k + 1` pushes of a run had left it,
and the bank that the whole run has left, a pop gives back word `k` and the SP from before its push. -/
theorem pop_of_pushWords {vs : List Word} {s t u : State} {k : Nat} (hwf : s.mem.wf = true) (hn : vs.length < 16384)
    (h : pushWords vs s = .ok t) (hk : k < vs.length) (hmem : u.mem = t.mem)
    (hsp : u.reg .sp = pushSlot (s.reg .sp) (k + 1)) :
    pop u = .ok (vs[k], (u.setReg .sp (pushSlot (s.reg .sp) k)).setSfs (u.sfs - 2)) := by
  obtain ⟨hin, rfl⟩ := pushWords_eq_ok h
  have hbank : u.mem = putWords s.mem (s.reg .sp) vs := hmem
  have hslot : u.reg .sp + 2 = pushSlot (s.reg .sp) k := by
    rw [hsp]
    exact popSlot_pushSlot (s.reg .sp) (Nat.le_add_left 1 k)
  have hbound : ¬ u.mem.len ≤ (pushSlot (s.reg .sp) k).toNat + 1 := by
    rw [hbank, len_putWords]
    exact Nat.not_le.mpr (hin k hk)
  rw [pop_eq, hslot, if_neg hbound, hbank, wordAt_putWords hwf hn hin k hk]

/-- Settles O35: the three pushes are one run, whose words stand at its slots, and each pop is `pop_of_pushWords`. -/
theorem threePushesPopInReverse : Obligations.ThreePushesPopInReverse := by
  rintro s s1 s2 s3 v1 v2 v3 ⟨-, hwf⟩ h1 h2 h3
  have hrun : pushWords [v1, v2, v3] s = .ok s3 := by simp only [pushWords, h1, h2, h3, ok_bind]
  obtain ⟨hin, hs3⟩ := pushWords_eq_ok hrun
  have hword : ∀ k (hk : k < [v1, v2, v3].length),
      s3.mem.wordAt (pushSlot (s.reg .sp) k).toNat = [v1, v2, v3][k] := by
    rw [hs3]
    exact wordAt_putWords hwf (by simp) hin
  have hsp : s3.reg .sp = pushSlot (s.reg .sp) 3 := by rw [hs3]; rfl
  have hsfs : s3.sfs = s.sfs + 6 := by rw [hs3]; rfl
  have hfirst := hword 0 (by simp)
  rw [pushSlot_zero] at hfirst
  refine ⟨hfirst, hword 1 (by simp), hword 2 (by simp), _, _, _,
    pop_of_pushWords (k := 2) hwf (by simp) hrun (by simp) rfl hsp,
    pop_of_pushWords (k := 1) hwf (by simp) hrun (by simp) rfl rfl,
    pop_of_pushWords (k := 0) hwf (by simp) hrun (by simp) rfl rfl, pushSlot_zero _, ?sfs⟩
  case sfs =>
    show s3.sfs - 2 - 2 - 2 = s.sfs
    rw [hsfs]
    bv_omega

/-! ### The push instructions -/

theorem exec_pshReg_eq {reg : Byte} {r : Reg} (s : State) (hr : Reg.ofIndex reg = some r) :
    exec (.pshReg reg) s = conclude (push (s.reg r) s) := by
  simp only [exec, execPshReg, readIndex_ok s hr, ok_bind]

/-- Settles O32: either instruction is the push of `v`, a register being read before SP moves. -/
theorem pushesStoreAtTheOldSp : Obligations.PushesStoreAtTheOldSp := by
  intro s v i hi
  have hexec : exec i s = conclude (push v s) := by
    rcases hi with rfl | ⟨reg, r, rfl, hr, rfl⟩
    · rfl
    · exact exec_pshReg_eq s hr
  rw [hexec, push_eq]
  refine ⟨fun hwf hin => ?completes, fun hout => by rw [if_pos hout, conclude_error]⟩
  case completes =>
    rw [if_neg (Nat.not_le.mpr hin), conclude_ok]
    refine ⟨_, rfl, Memory.byteAt_putWord_high hwf hin v, Memory.byteAt_putWord_low hwf hin v, ?bytes, rfl, rfl, rfl,
      ?regs, rfl⟩
    case bytes =>
      intro x hhigh hlow
      exact (Memory.byteAt_putWord hwf hin v x).trans (by rw [if_neg hhigh, if_neg hlow])
    case regs =>
      intro q hq
      rw [State.reg_setReg, if_neg hq, State.reg_setSfs, State.reg_setMem]

/-- Settles O33: the index is checked before the push (R77). -/
theorem pushOfBadIndexFaults : Obligations.PushOfBadIndexFaults :=
  fun _ _ hbad => exec_fault_of_not_next fun _ ht => by
    obtain ⟨_, hr, -⟩ := execPshReg_next ht
    exact absurd (Reg.lt_of_ofIndex hr) (Nat.not_lt.mpr hbad)

/-! ### POP -/

theorem exec_pop_fault {reg : Byte} {s : State}
    (hbad : 12 ≤ reg.toNat ∨ s.mem.len ≤ (s.reg .sp + 2).toNat + 1) :
    exec (.pop reg) s = .fault .addressOutOfRange :=
  exec_fault_of_not_next fun _ ht => by
    obtain ⟨_, hr, hin, -⟩ := execPop_next ht
    have hreg := Reg.lt_of_ofIndex hr
    omega

/-- Settles O34: the destination is written last, over the incremented SP where the two are one register (R78). -/
theorem popReadsAboveSp : Obligations.PopReadsAboveSp := by
  intro s reg
  refine ⟨fun r hr hin => ⟨_, exec_pop_ok hin hr, ?word, ?sp, ?others, rfl, rfl, rfl⟩, exec_pop_fault⟩
  case word => rw [State.reg_setReg, if_pos rfl, Memory.wordAt]
  case sp =>
    intro hne
    rw [State.reg_setReg, if_neg hne.symm, State.reg_setSfs, State.reg_setReg, if_pos rfl]
  case others =>
    intro q hqr hqsp
    rw [State.reg_setReg, if_neg hqr, State.reg_setSfs, State.reg_setReg, if_neg hqsp]

end Sys2Proof.Machine

/-! Proofs of the call family (spec/45_call.md): what a call leaves, when a call and RET fault, what RET restores, and
the calling convention that the two make together. -/

namespace Sys2Proof.Machine

/-! ### What the two calls share -/

/-- A call that completes is push_state, and then a write of IP (R82, R83). -/
theorem exec_call_next {i : Instr} {s t : State} (hi : (∃ addr, i = .calLit addr) ∨ ∃ reg, i = .calReg reg)
    (h : exec i s = .next t) : ∃ u target, pushState s = .ok u ∧ t = u.setReg .ip target := by
  rcases hi with ⟨addr, rfl⟩ | ⟨reg, rfl⟩
  · obtain ⟨u, hu, rfl⟩ := execCalLit_next h
    exact ⟨u, addr, hu, rfl⟩
  · obtain ⟨r, u, -, hu, rfl⟩ := execCalReg_next h
    exact ⟨u, s.reg r, hu, rfl⟩

/-- The frame of R79, as push_state leaves it in memory and in the registers. -/
theorem callResult_of_pushState {s u : State} (target : Word) (hwf : s.mem.wf = true) (h : pushState s = .ok u) :
    callResult s target (u.setReg .ip target) := by
  obtain ⟨hin, hmem, hsfs, hstatus, hsp, hfp, hother⟩ := pushState_eq_ok h
  have hbank : (u.setReg .ip target).mem = putWords s.mem (s.reg .sp) (frameWords s) := hmem
  refine ⟨?words, ?bytes, ?len, hsp, hfp, hsfs, rfl, ?regs, hstatus⟩
  case words =>
    rw [hbank]
    exact wordAt_putWords hwf (by simp [frameWords_length]) hin
  case bytes =>
    intro x hx
    rw [hbank]
    exact byteAt_putWords (vs := frameWords s) hwf hin hx
  case len => rw [hbank, len_putWords]
  case regs =>
    intro r hrsp hrfp hrip
    rw [State.reg_setReg, if_neg hrip, hother r hrsp hrfp]

/-- Settles O36: the state that push_state leaves has the frame, and the call writes IP last. -/
theorem calLitPushesTheFrame : Obligations.CalLitPushesTheFrame := by
  intro s addr hwf hin
  obtain ⟨u, hu, -⟩ := pushState_ok s hin
  exact ⟨_, exec_calLit_ok addr hu, callResult_of_pushState addr hwf hu⟩

/-- Settles O37: the target is the register's value in `s`, the state before push_state (D6). -/
theorem calRegPushesTheFrame : Obligations.CalRegPushesTheFrame := by
  intro s reg r hwf hr hin
  obtain ⟨u, hu, -⟩ := pushState_ok s hin
  exact ⟨_, exec_calReg_ok hr hu, callResult_of_pushState (s.reg r) hwf hu⟩

/-! ### The faults of the calls -/

theorem exec_call_fault {i : Instr} {s : State} {k : Nat} (hi : (∃ addr, i = .calLit addr) ∨ ∃ reg, i = .calReg reg)
    (hk : k < 10) (hout : ¬ wordInMemory (pushSlot (s.reg .sp) k) s) : exec i s = .fault .addressOutOfRange :=
  exec_fault_of_not_next fun _ ht => by
    obtain ⟨_, _, hu, -⟩ := exec_call_next hi ht
    exact hout ((pushState_eq_ok hu).1 k hk)

theorem exec_calReg_fault_of_index {reg : Byte} (s : State) (hbad : 12 ≤ reg.toNat) :
    exec (.calReg reg) s = .fault .addressOutOfRange :=
  exec_fault_of_not_next fun _ ht => by
    obtain ⟨_, _, hr, -⟩ := execCalReg_next ht
    exact absurd (Reg.lt_of_ofIndex hr) (Nat.not_lt.mpr hbad)

/-- Settles O38: a call that completes has all its ten pushes in memory and an index that names a register. -/
theorem callsFaultOutsideMemory : Obligations.CallsFaultOutsideMemory :=
  ⟨fun _ addr reg _ hk hout =>
    ⟨exec_call_fault (.inl ⟨addr, rfl⟩) hk hout, exec_call_fault (.inr ⟨reg, rfl⟩) hk hout⟩,
    fun s _ => exec_calReg_fault_of_index s⟩

/-! ### RET -/

/-- Settles O39: `popState_ok` gives the saved registers by their place in `savedRegs`, R8 being the last and popped
first. -/
theorem retRestoresFromTheFrame : Obligations.RetRestoresFromTheFrame := by
  intro s hin
  obtain ⟨t, ht, hmem, hstatus, hsfs, hsp, hfp, hacc, hip, hsaved⟩ := popState_ok s hin
  exact ⟨t, exec_ret_ok ht, hip, hsaved 7 (by decide), hsaved 6 (by decide), hsaved 5 (by decide),
    hsaved 4 (by decide), hsaved 3 (by decide), hsaved 2 (by decide), hsaved 1 (by decide), hsaved 0 (by decide),
    hsp, hfp, hsfs, hacc, hmem, hstatus⟩

theorem exec_ret_fault {s : State} {k : Nat} (h1 : 1 ≤ k) (h2 : k ≤ 11 + (retCount s).toNat)
    (hout : ¬ wordInMemory (popSlot (s.reg .fp) k) s) : exec .ret s = .fault .addressOutOfRange :=
  exec_fault_of_not_next fun _ ht => hout ((popState_eq_ok (execRet_next ht)).1 k h1 h2)

/-- Above the last whole word of memory there is none, and an admitted length is below 2^16, so that the address of the
next word does not wrap. -/
theorem not_wordInMemory_above_last {a : Word} {s : State} (hlen : Config.memLenOk s.mem.len)
    (ha : a.toNat = s.mem.len - 2) : ¬ wordInMemory (popSlot a 1) s := by
  obtain ⟨hmin, hmax⟩ : 2 ≤ s.mem.len ∧ s.mem.len ≤ 65535 := hlen
  have hslot : (popSlot a 1).toNat = s.mem.len := by
    rw [popSlot, BitVec.toNat_add, BitVec.toNat_ofNat]
    omega
  rw [wordInMemory, hslot]
  omega

/-- Settles O40: from the initial FP it is the first pop, of the marker, that reads past the end. -/
theorem retFaultsOutsideMemory : Obligations.RetFaultsOutsideMemory :=
  ⟨fun _ _ => exec_ret_fault,
    fun _ hlen hfp => exec_ret_fault (Nat.le_refl 1) (by omega) (not_wordInMemory_above_last hlen hfp)⟩

/-- Settles O42: the eleventh pop of RET, of the count, is the first one above the SP of the call. -/
theorem retWithoutCountFaults : Obligations.RetWithoutCountFaults := by
  intro s t c i hlen hsp hi h hclen hcfp
  obtain ⟨u, target, hu, rfl⟩ := exec_call_next hi h
  obtain ⟨-, -, -, -, -, hfp, -⟩ := pushState_eq_ok hu
  have hslot : popSlot (c.reg .fp) 11 = popSlot (s.reg .sp) 1 := by
    rw [hcfp, State.reg_setReg, if_neg nofun, hfp]
    exact popSlot_pushSlot_above (s.reg .sp) (by decide)
  have hout : ¬ wordInMemory (popSlot (s.reg .sp) 1) c :=
    not_wordInMemory_above_last (hclen ▸ hlen) (hclen ▸ hsp)
  exact exec_ret_fault (k := 11) (by decide) (by omega) (hslot ▸ hout)

/-! ### The calling convention (R85) -/

/-- What R85 asks of a callee: in `c`, FP and the ten frame words are as a call from `s` left them. -/
structure KeepsFrame (s c : State) : Prop where
  fp : c.reg .fp = pushSlot (s.reg .sp) 10
  words : ∀ k (hk : k < (frameWords s).length), c.mem.wordAt (pushSlot (s.reg .sp) k).toNat = (frameWords s)[k]

section KeepsFrame
variable {s c : State}

/-- RET's pops meet the frame words from the last one pushed to the first. -/
theorem KeepsFrame.wordAt_popSlot (h : KeepsFrame s c) {k : Nat} (hk : k < 10) :
    c.mem.wordAt (popSlot (c.reg .fp) (10 - k)).toNat = (frameWords s)[k]'hk := by
  have hslot : popSlot (c.reg .fp) (10 - k) = pushSlot (s.reg .sp) k := by
    rw [h.fp, popSlot_pushSlot _ (Nat.sub_le 10 k), Nat.sub_sub_self hk.le]
  rw [hslot]
  exact h.words k hk

/-- Above the frame, RET's pops go on from the SP of the call. -/
theorem KeepsFrame.popSlot_above (h : KeepsFrame s c) (j : Nat) :
    popSlot (c.reg .fp) (10 + j) = popSlot (s.reg .sp) j := by
  rw [h.fp, popSlot_pushSlot_above _ (Nat.le_add_right 10 j), Nat.add_sub_cancel_left]

theorem KeepsFrame.retMarker_eq (h : KeepsFrame s c) : retMarker c = s.sfs + 20 := h.wordAt_popSlot (k := 9) (by decide)

theorem KeepsFrame.returnAddress_eq (h : KeepsFrame s c) :
    c.mem.wordAt (popSlot (c.reg .fp) 2).toNat = s.reg .ip := h.wordAt_popSlot (k := 8) (by decide)

theorem KeepsFrame.savedReg_eq (h : KeepsFrame s c) {k : Nat} (hk : k < savedRegs.length) :
    c.mem.wordAt (popSlot (c.reg .fp) (10 - k)).toNat = s.reg savedRegs[k] := by
  have hk8 : k < 8 := hk
  have hsplit : frameWords s = savedRegs.map s.reg ++ [s.reg .ip, s.sfs + 20] := rfl
  rw [h.wordAt_popSlot (by omega)]
  simp only [hsplit]
  rw [List.getElem_append_left (by simpa using hk), List.getElem_map]

theorem KeepsFrame.retCount_eq (h : KeepsFrame s c) : retCount c = c.mem.wordAt (popSlot (s.reg .sp) 1).toNat := by
  rw [retCount, h.popSlot_above 1]

/-- The first ten pops of RET are in memory where the pushes of the call were. -/
theorem KeepsFrame.popsInMemory (h : KeepsFrame s c) (hlen : c.mem.len = s.mem.len) (hcall : callInMemory s)
    (habove : ∀ k, 1 ≤ k → k ≤ 1 + (retCount c).toNat → wordInMemory (popSlot (s.reg .sp) k) c) : retInMemory c := by
  intro k hk1 hk2
  by_cases hframe : k ≤ 10
  · have hin : wordInMemory (pushSlot (s.reg .sp) (10 - k)) s := hcall (10 - k) (by omega)
    rw [h.fp, popSlot_pushSlot _ hframe, wordInMemory, hlen]
    exact hin
  · obtain ⟨j, rfl⟩ : ∃ j, k = 10 + j := ⟨k - 10, by omega⟩
    rw [h.popSlot_above]
    exact habove j (by omega) (by omega)

end KeepsFrame

theorem ofNat_two_mul_toNat (n : Word) : BitVec.ofNat 16 (2 * n.toNat) = 2 * n := by
  rw [BitVec.ofNat_mul, BitVec.ofNat_toNat, BitVec.setWidth_eq]
  rfl

/-- R85 (b) to (f): RET from a state that keeps the frame of a call. -/
theorem exec_ret_of_keepsFrame {s c : State} (h : KeepsFrame s c) (hin : retInMemory c) :
    ∃ u, exec .ret c = .next u ∧ (∀ r, r ∈ savedRegs → u.reg r = s.reg r) ∧ u.reg .ip = s.reg .ip ∧
      u.reg .sp = s.reg .sp + 2 + 2 * retCount c ∧ u.reg .fp = s.reg .sp + s.sfs ∧
      u.sfs = s.sfs - 2 * retCount c ∧ u.reg .acc = c.reg .acc ∧ u.mem = c.mem := by
  obtain ⟨u, hu, hmem, -, hsfs, hsp, hfp, hacc, hip, hsaved⟩ := popState_ok c hin
  refine ⟨u, exec_ret_ok hu, ?saved, hip.trans h.returnAddress_eq, ?sp, ?fp, ?sfs, hacc, hmem⟩
  case saved =>
    intro r hr
    obtain ⟨k, hk, rfl⟩ := List.getElem_of_mem hr
    exact (hsaved k hk).trans (h.savedReg_eq hk)
  case sp =>
    have hcount : 11 + (retCount c).toNat = 10 + (1 + (retCount c).toNat) := by omega
    rw [hsp, hcount, h.popSlot_above, popSlot, Nat.mul_add, BitVec.ofNat_add, ofNat_two_mul_toNat, add_assoc]
    rfl
  case fp =>
    rw [hfp, h.retMarker_eq, h.fp]
    exact sub_add_add_cancel (s.reg .sp) s.sfs 20
  case sfs => rw [hsfs, h.retMarker_eq, add_sub_cancel_right, ofNat_two_mul_toNat]

/-- Settles O41: part (a) is the call's own result; the frame that it left is the one `c` keeps. -/
theorem retUndoesTheCall : Obligations.RetUndoesTheCall := by
  rintro s t c i n ⟨-, hwf⟩ hi h hlen hcfp hcwords rfl habove
  obtain ⟨u, target, hu, rfl⟩ := exec_call_next hi h
  have hcall : callInMemory s := (pushState_eq_ok hu).1
  obtain ⟨hwords, -, -, hsp, hfp, hsfs, -⟩ := callResult_of_pushState target hwf hu
  have hkeeps : KeepsFrame s c := ⟨hcfp.trans hfp, fun k hk => (hcwords k hk).trans (hwords k hk)⟩
  rw [← hkeeps.retCount_eq] at habove ⊢
  exact ⟨⟨hsp, hfp, hsfs⟩, exec_ret_of_keepsFrame hkeeps (hkeeps.popsInMemory hlen hcall habove)⟩

end Sys2Proof.Machine

/-! Proofs of the exceptions family (spec/60_exceptions.md): an instruction that memory cuts off, HALT and the state
Halted, and the debug accessors. -/

namespace Sys2Proof.Machine

/-! ### Truncated instructions -/

/-- Settles O7: the opcode fetch outside memory faults, and so does the fetch of a row that memory cuts off. -/
theorem truncatedInstructionFaults : Obligations.TruncatedInstructionFaults := by
  rintro s ⟨-, hlen⟩ hs
  refine ⟨step_fault_of_ip_outside hs, fun o _ hbyte hcut => ?_⟩
  rw [step_running hs, fetchInstr_truncated hlen (Opcode.ofByte_eq_some.mpr hbyte.symm) hcut]

/-! ### The debug accessors -/

/-- Settles O51: READ_REG is the register port and READ_MEM_BYTE the byte read, each with its own bounds check. -/
theorem debugAccessorsRead : Obligations.DebugAccessorsRead :=
  fun s _ _ => ⟨fun _ => readIndex_ok s, readIndex_error s, readU8_ok, readU8_error⟩

/-! ### The fetch, in a memory of any length -/

theorem fetchU8_eq_ok {s t : State} {b : Byte} (h : fetchU8 s = .ok (b, t)) :
    (s.reg .ip).toNat < s.mem.len ∧ b = s.mem.byteAt (s.reg .ip).toNat ∧ t = s.setReg .ip (s.reg .ip + 1) := by
  rw [fetchU8_eq] at h
  split at h <;> cases h
  exact ⟨by omega, rfl, rfl⟩

theorem fetchField_status {f : OperandField} {s t : State} {bs : List Byte} (h : fetchField f s = .ok (bs, t)) :
    t.status = s.status := by
  rw [fetchField_eq] at h
  split at h <;> cases h
  rfl

theorem fetchFields_status {fs : List OperandField} {s t : State} {bs : List Byte}
    (h : fetchFields fs s = .ok (bs, t)) : t.status = s.status := by
  induction fs generalizing s bs with
  | nil =>
    cases h
    rfl
  | cons f fs ih =>
    simp only [fetchFields, bind_eq_ok] at h
    obtain ⟨⟨_, s1⟩, hfirst, ⟨_, s2⟩, hrest, heq⟩ := h
    cases heq
    exact (ih hrest).trans (fetchField_status hfirst)

/-- The instruction that a fetch gives has its own opcode byte at IP, in memory, and the fetch leaves the status. -/
theorem fetchInstr_opcode {s u : State} {i : Instr} (h : fetchInstr s = .ok (i, u)) :
    (s.reg .ip).toNat < s.mem.len ∧ s.mem.byteAt (s.reg .ip).toNat = i.opcode.byte ∧ u.status = s.status := by
  simp only [fetchInstr, bind_eq_ok] at h
  obtain ⟨⟨op, s1⟩, hop, h⟩ := h
  obtain ⟨hin, rfl, rfl⟩ := fetchU8_eq_ok hop
  split at h
  · cases h
  · obtain ⟨⟨operands, s2⟩, hfields, h⟩ := bind_eq_ok.mp h
    dsimp only at h
    split at h
    case h_2 => cases h
    case h_1 hdec =>
      cases h
      have hstatus := fetchFields_status hfields
      exact ⟨hin, (decode_ok_opcode hdec).1, hstatus⟩

/-! ### HALT and Halted -/

/-- HALT has no operand, so its fetch reads one byte (R64). -/
theorem fetchInstr_halt {s : State} (hin : (s.reg .ip).toNat < s.mem.len)
    (hbyte : s.mem.byteAt (s.reg .ip).toNat = Opcode.halt.byte) :
    fetchInstr s = .ok (.halt, s.setReg .ip (s.reg .ip + 1)) := by
  simp only [fetchInstr, fetchU8_eq, if_neg (Nat.not_le.mpr hin), ok_bind, hbyte, Opcode.ofByte_byte]
  rfl

/-- Only HALT writes the status (R29). -/
theorem eq_halt_of_exec_enters_halted {i : Instr} {s t : State} (hs : s.status ≠ .halted) (h : exec i s = .next t)
    (ht : t.status = .halted) : i = .halt := by
  by_contra hi
  exact hs (((exec_frame h).status hi).symm.trans ht)

/-- Settles O15: a step that enters Halted has run HALT, since the fetch leaves the status, and HALT was fetched from
its byte at IP. -/
theorem haltedOnlyByHaltAndTerminal : Obligations.HaltedOnlyByHaltAndTerminal := by
  refine ⟨?haltHalts, ?onlyHalt, fun _ => step_halted⟩
  case haltHalts =>
    intro s hs hin hbyte
    rw [step_running hs, fetchInstr_halt hin hbyte]
    rfl
  case onlyHalt =>
    intro s t hs hstep ht
    obtain ⟨hhalted, -⟩ | ⟨hrunning, i, u, hfetch, hexec⟩ := step_next hstep
    · exact absurd hhalted hs
    · obtain ⟨hin, hbyte, hstatus⟩ := fetchInstr_opcode hfetch
      obtain rfl : i = .halt := eq_halt_of_exec_enters_halted (hstatus.trans_ne hs) hexec ht
      exact ⟨hrunning, hin, hbyte⟩

end Sys2Proof.Machine

/-! Proofs of the family of reset, host loads and integer exactness (spec/70_reset_and_hazards.md and
spec/92_eei_decisions.md D3): what LOAD installs, the state after reset as one that CONSTRUCT builds, and the stack under
NO_WRAP. -/

namespace Sys2Proof.Machine

/-! ### LOAD -/

/-- R103: within the run that is written, the byte of the list. -/
theorem Memory.byteAt_putBytes_within {m : Memory} (h : m.wf = true) {a : Nat} {bs : List Byte}
    (ha : a + bs.length ≤ m.len) {k : Nat} (hk : k < bs.length) : (m.putBytes a bs).byteAt (a + k) = bs[k] := by
  simp [Memory.byteAt_putBytes h ha, hk]

/-- R103: below and above the run that is written, the byte from before. -/
theorem Memory.byteAt_putBytes_outside {m : Memory} (h : m.wf = true) {a : Nat} {bs : List Byte}
    (ha : a + bs.length ≤ m.len) {x : Nat} (hx : x < a ∨ a + bs.length ≤ x) :
    (m.putBytes a bs).byteAt x = m.byteAt x := by
  rw [Memory.byteAt_putBytes h ha]
  rcases hx with hbelow | habove
  · rw [if_neg (Nat.not_le.mpr hbelow)]
  · have hpast : bs[x - a]? = none := List.getElem?_eq_none (by omega)
    rw [hpast, Option.getD_none, ite_self]

/-- Settles O49: LOAD replaces the bank and no other field; where the bytes do not fit it enters Faulted, which from a
terminal status is no change. -/
theorem loadInstallsOrFaults : Obligations.LoadInstallsOrFaults := by
  intro s offset bytes
  refine ⟨fun hwf hfits => ?installs, fun hout => ⟨fun hrunning => ?faults, fun hterminal => ?keepsStatus⟩⟩
  case installs =>
    exact ⟨_, load_installed hfits, fun _ hk => Memory.byteAt_putBytes_within hwf hfits hk,
      fun _ hx => Memory.byteAt_putBytes_outside hwf hfits hx, Memory.len_putBytes _ _ _, fun _ => rfl, rfl, rfl⟩
  case faults => rw [load_error hout, enterFaulted_running _ hrunning]
  case keepsStatus => rw [load_error hout, enterFaulted_terminal _ hterminal]

/-! ### The state after reset -/

/-- An empty bank lists no cell for a byte `memFill` written to it. -/
theorem Memory.putBytes_empty_replicate_memFill (len a n : Nat) :
    Memory.putBytes ⟨len, []⟩ a (List.replicate n memFill) = ⟨len, []⟩ := by
  induction n generalizing a with
  | zero => rfl
  | succ n ih => exact ih (a + 1)

/-- Settles O48: a bank built from zero bytes lists no cell, as the bank of `State.reset`. -/
theorem resetIsConstructed : Obligations.ResetIsConstructed := by
  have hmem : Memory.ofBytes resetMemLen (List.replicate resetMemLen 0) = ⟨resetMemLen, []⟩ :=
    Memory.putBytes_empty_replicate_memFill resetMemLen 0 resetMemLen
  rw [Obligations.ResetIsConstructed, construct_eq_some (by decide) List.length_replicate, hmem, State.reset]

/-! ### Words as integers -/

/-- The signed sum of a word and a natural number, which need not be in the signed range itself. -/
theorem toInt_add_ofNat {c : Word} {n : Nat} (h : c.toInt + n ≤ 32767) :
    (c + BitVec.ofNat 16 n).toInt = c.toInt + n := by
  have hmin : -32768 ≤ c.toInt := c.le_toInt
  rw [BitVec.toInt_add, BitVec.toInt_ofNat', Int.add_bmod_bmod]
  exact Int.bmod_eq_of_le (by omega) (by omega)

/-- The signed difference of a word and a natural number, which need not be in the signed range itself. -/
theorem toInt_sub_ofNat {c : Word} {n : Nat} (h : -32768 ≤ c.toInt - n) :
    (c - BitVec.ofNat 16 n).toInt = c.toInt - n := by
  have hmax : c.toInt ≤ 32767 := Int.le_of_lt_add_one c.toInt_lt
  rw [BitVec.toInt_sub, BitVec.toInt_ofNat', Int.sub_bmod_bmod]
  exact Int.bmod_eq_of_le (by omega) (by omega)

/-- An address moved by a signed offset (the FP restore of R81). -/
theorem toNat_add_eq_add_toInt {a c : Word} (hmin : 0 ≤ (a.toNat : Int) + c.toInt)
    (hmax : (a.toNat : Int) + c.toInt ≤ 65535) : ((a + c).toNat : Int) = a.toNat + c.toInt := by
  have hsign := BitVec.toInt_eq_toNat_cond c
  rw [BitVec.toNat_add]
  split at hsign <;> omega

theorem pushSlot_toNat {sp : Word} {k : Nat} (h : 2 * k ≤ sp.toNat) : (pushSlot sp k).toNat + 2 * k = sp.toNat := by
  rw [pushSlot, BitVec.toNat_sub, BitVec.toNat_ofNat]
  omega

theorem popSlot_toNat {sp : Word} {k : Nat} (h : sp.toNat + 2 * k ≤ 65535) :
    (popSlot sp k).toNat = sp.toNat + 2 * k := by
  rw [popSlot, BitVec.toNat_add, BitVec.toNat_ofNat]
  omega

/-! ### The stack under NO_WRAP (D3) -/

theorem push_exact {v : Word} {s t : State} (hw : pushesNoWrap 1 s) (h : push v s = .ok t) :
    (t.reg .sp).toNat + 2 = (s.reg .sp).toNat ∧ t.sfs.toInt = s.sfs.toInt + 2 := by
  obtain ⟨hsp, hsfs⟩ := hw
  obtain ⟨-, rfl⟩ := push_eq_ok h
  exact ⟨pushSlot_toNat (k := 1) hsp, toInt_add_ofNat (n := 2) hsfs⟩

theorem exec_push_exact {i : Instr} {s t : State} (hi : (∃ v, i = .pshLit v) ∨ ∃ reg, i = .pshReg reg)
    (hw : noWrap i s) (h : exec i s = .next t) :
    (t.reg .sp).toNat + 2 = (s.reg .sp).toNat ∧ t.sfs.toInt = s.sfs.toInt + 2 := by
  rcases hi with ⟨v, rfl⟩ | ⟨reg, rfl⟩
  · exact push_exact hw (execPshLit_next h)
  · obtain ⟨r, -, hpush⟩ := execPshReg_next h
    exact push_exact hw hpush

theorem exec_pop_exact {reg : Byte} {s t : State} (hw : noWrap (.pop reg) s) (h : exec (.pop reg) s = .next t) :
    (Reg.ofIndex reg ≠ some .sp → (t.reg .sp).toNat = (s.reg .sp).toNat + 2) ∧ t.sfs.toInt = s.sfs.toInt - 2 := by
  obtain ⟨hsp, hsfs⟩ : popsNoWrap 1 (s.reg .sp) s.sfs := hw
  obtain ⟨r, hr, -, rfl⟩ := execPop_next h
  refine ⟨fun hne => ?sp, toInt_sub_ofNat (n := 2) hsfs⟩
  case sp =>
    have hkeeps : .sp ≠ r := by
      rintro rfl
      exact hne hr
    rw [State.reg_setReg, if_neg hkeeps, State.reg_setSfs, State.reg_setReg, if_pos rfl]
    exact popSlot_toNat (k := 1) hsp

theorem exec_call_exact {i : Instr} {s t : State} (hwf : s.mem.wf = true)
    (hi : (∃ addr, i = .calLit addr) ∨ ∃ reg, i = .calReg reg) (hw : noWrap i s) (h : exec i s = .next t) :
    (t.reg .sp).toNat + 20 = (s.reg .sp).toNat ∧ (t.reg .fp).toNat + 20 = (s.reg .sp).toNat ∧ t.sfs.toInt = 0 ∧
      (retMarker t).toInt = s.sfs.toInt + 20 := by
  obtain ⟨hroom, hmarker⟩ : pushesNoWrap 10 s := by rcases hi with ⟨_, rfl⟩ | ⟨_, rfl⟩ <;> exact hw
  obtain ⟨u, target, hu, rfl⟩ := exec_call_next hi h
  obtain ⟨hwords, -, -, hsp, hfp, hsfs, -⟩ := callResult_of_pushState target hwf hu
  have hkeeps : KeepsFrame s (u.setReg .ip target) := ⟨hfp, hwords⟩
  have hslot : (s.reg .sp - 20).toNat + 20 = (s.reg .sp).toNat := pushSlot_toNat (k := 10) hroom
  rw [hsp, hfp, hsfs, hkeeps.retMarker_eq]
  exact ⟨hslot, hslot, rfl, toInt_add_ofNat (n := 20) hmarker⟩

theorem exec_ret_exact {s t : State} (hw : noWrap .ret s) (h : exec .ret s = .next t) :
    (t.reg .sp).toNat = (s.reg .fp).toNat + 22 + 2 * (retCount s).toNat ∧
      ((t.reg .fp).toNat : Int) = (s.reg .fp).toNat + (retMarker s).toInt ∧
      t.sfs.toInt = (retMarker s).toInt - 20 - 2 * (retCount s).toNat := by
  obtain ⟨⟨hfirst, -⟩, ⟨hrest, hcount⟩, hmin, hmax⟩ := hw
  obtain ⟨-, -, -, hsfs, hsp, hfp, -⟩ := popState_eq_ok (execRet_next h)
  refine ⟨?sp, hfp ▸ toNat_add_eq_add_toInt hmin hmax, ?sfs⟩
  case sp =>
    rw [popSlot_toNat hfirst] at hrest
    rw [hsp, popSlot_toNat (by omega)]
    omega
  case sfs =>
    have hsum : t.sfs = retMarker s - BitVec.ofNat 16 (20 + 2 * (retCount s).toNat) := by
      rw [hsfs, BitVec.ofNat_add, sub_sub]
      rfl
    rw [hsum, toInt_sub_ofNat (by omega)]
    omega

/-- Settles O46: each operation leaves a word sum that NO_WRAP keeps in range, so that the sum is the integer one. -/
theorem noWrapMakesTheStackExact : Obligations.NoWrapMakesTheStackExact :=
  ⟨fun _ _ _ => exec_push_exact, fun _ _ _ => exec_pop_exact, fun _ _ _ => exec_call_exact, fun _ _ => exec_ret_exact⟩

end Sys2Proof.Machine
